-- ==== Sys2Proof/Word.lean ====
section
/-! DEFINITION. The word: what one entry of the block, one data word of the host port and the status word hold
(spec 00_scope.md R8, 20_memory.md R33). -/

namespace Sys2Proof

/-- One 32-bit word; as a signed integer it is `BitVec.toInt` (the spec's `sext_32`). -/
abbrev Word := BitVec 32

/-- The word that holds an integer that fits (R8: `w = int mod 2^32`). -/
abbrev Word.ofInt (v : Int) : Word := BitVec.ofInt 32 v

end Sys2Proof
end

