-- ==== Sys2Proof/Config.lean ====
section
/-! DEFINITION. What is fixed for the machine (spec 00_scope.md R7; 20_memory.md R35). No value is left free: every
value the spec leaves open is a model fault by one of its numbered rules (log entries 2 and 3). -/

namespace Sys2Proof

/-- Entries of the block: "Block length is always exactly 64" (R7). -/
def Config.blockLen : Nat := 64

/-- The only length a call accepts, as the 8-bit field LEN (R74). -/
def Config.legalLen : BitVec 8 := 64#8

/-- Word address of the command port CTRL (R35). -/
def Config.ctrlAddr : BitVec 7 := 0x40#7

/-- Word address of STATUS (R35). -/
def Config.statusAddr : BitVec 7 := 0x41#7

/-- First word address of the ROM window (R35). -/
def Config.romBase : BitVec 7 := 0x50#7

/-- Last word address of the ROM window (R35). -/
def Config.romLast : BitVec 7 := 0x5C#7

end Sys2Proof
end

