-- ==== Sys2Proof/Syntax.lean ====
section
/-! DEFINITION. The instructions: the seven host commands of format H and the three micro-operations of format U
(spec 30_encoding.md R53, R57; spec/opcode_table.json). Ignored bits of an encoding are no operands. -/

namespace Sys2Proof

/-- One constructor per row of the opcode table. -/
inductive Instr where
  /-- `WR_BLK i, v`: the host writes one block entry (40 R70). -/
  | wrBlk (i : Fin 64) (v : Word)
  /-- `RD_BLK i`: the host reads one block entry (40 R71). -/
  | rdBlk (i : Fin 64)
  /-- `CTRL_NOP`: a write of CTRL with no command (40 R73). -/
  | ctrlNop
  /-- `START len`: the host begins a call of a block it declares to have `len` entries (40 R74). -/
  | start (len : BitVec 8)
  /-- `CLEAR`: the host acknowledges completion or error (40 R75). -/
  | clear
  /-- `RD_STATUS`: the host reads the status register (40 R76). -/
  | rdStatus
  /-- `RD_ROM k`: the host reads one constant (40 R77); `k` is the 4-bit field ADDR[3:0], valid for 0 to 12. -/
  | rdRom (k : Fin 16)
  /-- `ROW r`: the engine transforms one row, pass 1 (41 R92). -/
  | row (r : Fin 8)
  /-- `COL c`: the engine transforms one column, pass 2 (41 R93). -/
  | col (c : Fin 8)
  /-- `END`: the engine completes the call (41 R94). -/
  | endCall
deriving DecidableEq, Repr

/-- The name the opcode table gives the instruction. -/
def Instr.mnemonic : Instr → String
  | .wrBlk _ _ => "WR_BLK"
  | .rdBlk _ => "RD_BLK"
  | .ctrlNop => "CTRL_NOP"
  | .start _ => "START"
  | .clear => "CLEAR"
  | .rdStatus => "RD_STATUS"
  | .rdRom _ => "RD_ROM"
  | .row _ => "ROW"
  | .col _ => "COL"
  | .endCall => "END"

/-- The two encoded things (30 R50): a 40-bit host command word, a 5-bit micro-operation word. -/
inductive Encoded where
  /-- Format H. -/
  | command (w : BitVec 40)
  /-- Format U. -/
  | microOp (u : BitVec 5)
deriving DecidableEq, Repr

end Sys2Proof
end

