-- ==== Sys2Proof/Machine/State.lean ====
section
/-! DEFINITION. The state of one engine instance and its host port as plain data (spec 10_state.md), the reasons a
run stops, and the state after reset (R31, 70 R190). -/

namespace Sys2Proof.Machine

/-- The block buffer: a list of (index, word) in one canonical form, indices strictly rising and below 64; an index
that is not listed has held no value since reset (R30, R31; log entries 1 and 2). -/
abbrev Memory := List (Nat × Word)

/-- The fields of STATUS (R24). The reserved bits are not stored: they read 0. -/
structure Status where
  /-- Bit 0: a call is running. -/
  busy : Bool
  /-- Bit 1: the latest call completed. -/
  done : Bool
  /-- Bit 2: the latest START was refused for its length. -/
  err : Bool
  /-- Bits 7:4: 0 none, 1 INVALID_LENGTH. -/
  ecode : BitVec 4
  /-- Bits 15:8: the refused length. -/
  elen : BitVec 8
deriving DecidableEq, Repr

/-- The response to a host command (30 R52). -/
structure Response where
  /-- Bit 32: false is OKAY, true is ERROR. -/
  err : Bool
  /-- Bits 31:0: the data of an OKAY read, else 0. -/
  rdata : Word
deriving DecidableEq, Repr

/-- What moves next, one move a step (00 R14; log entry 4): a host command, a turn of the engine, the platform's
reset. -/
inductive Input where
  /-- The host offers one command word of format H. -/
  | command (w : BitVec 40)
  /-- The engine performs its enabled micro-operation, if it has one. -/
  | engineTurn
  /-- The platform resets the engine (70 R190). -/
  | reset
deriving DecidableEq, Repr

/-- One engine instance and its host port. -/
structure State where
  /-- The block buffer `blk[0..63]` (R20). -/
  blk : Memory
  /-- The sequencer, the engine's program counter (R23). -/
  seq : BitVec 5
  /-- STATUS (R24). -/
  status : Status
  /-- The response to the latest host command; none: no command has been answered since reset (log entry 6). -/
  resp : Option Response
  /-- The moves still to come, first one first; when none is left the engine moves (log entry 4). -/
  inputs : List Input
deriving DecidableEq, Repr

/-- The checked nodes of the butterfly, by the names of 42 R117 and 43 R138. -/
inductive Node where
  | f0 | p0 | a0 | a1
  | s1 | t1 | t1b | m4 | m5 | u4 | u5 | b4 | b5
  | s2 | t2 | t2b | m6 | m7 | u6 | u7 | b6 | b7
  | c8 | c0 | s3 | t3 | t3b | m2 | m3 | u2 | u3 | c2 | c3 | c1 | c4 | c6 | c5
  | d7 | d8 | d3 | d0 | s4 | q2 | g2 | s5 | q4 | g4
  | e0 | e1 | e2 | e3 | e4 | e5 | e6 | e7
deriving DecidableEq, Repr

/-- The model faults (60 R166, R167): where the hardware's behaviour is undefined the run stops. Both are safe: a
proof about a faulted run says nothing about hardware. -/
inductive Fault where
  /-- Raised by ROW and COL: the first node, in rule order, whose exact value does not fit 32 bits signed. Safe. -/
  | overflow (node : Node)
  /-- Raised by RD_BLK and by the reads of ROW and COL: the entry has held no value since reset. Safe. -/
  | uninitRead (i : Fin 64)
deriving DecidableEq, Repr

/-- The refusals. -/
inductive Refusal where
  /-- Raised by `exec` for an instruction without a meaning; no arm does. Safe. -/
  | notModelled (mnemonic : String)
  /-- Raised by `step` on an engine turn with `seq` 17 to 31, which no run from reset reaches (30 R57: "should
  refuse, not guess"). Safe. -/
  | reservedMicroOp (word : BitVec 5)
deriving DecidableEq, Repr

/-- The machine right after reset (R31, 70 R190): `seq` and STATUS 0, no entry with a value; no command answered and
none pending (the model's own fields, log entries 4 and 6). -/
def State.reset : State where
  blk := []
  seq := 0#5
  status := { busy := false, done := false, err := false, ecode := 0#4, elen := 0#8 }
  resp := none
  inputs := []

end Sys2Proof.Machine
end

