-- ==== Sys2Proof/Machine/Flags.lean ====
section
/-! DEFINITION. STATUS as software reads it, its four shapes, and the output levels (spec 10_state.md R24, R25,
R29). STATUS holds the only flags the hardware has: no arithmetic operation sets one. -/

namespace Sys2Proof.Machine

/-- The 32-bit word of STATUS: `{0, ELEN, ECODE, 0, ERR, DONE, BUSY}` (40 R76). -/
def Status.word (st : Status) : Word :=
  0#16 ++ st.elen ++ st.ecode ++ 0#1 ++ BitVec.ofBool st.err ++ BitVec.ofBool st.done ++ BitVec.ofBool st.busy

/-- Shape IDLE, word 0. -/
def Status.idle : Status := { busy := false, done := false, err := false, ecode := 0#4, elen := 0#8 }

/-- Shape BUSY, word 1. -/
def Status.running : Status := { busy := true, done := false, err := false, ecode := 0#4, elen := 0#8 }

/-- Shape DONE, word 2. -/
def Status.completed : Status := { busy := false, done := true, err := false, ecode := 0#4, elen := 0#8 }

/-- Shape ERROR: INVALID_LENGTH (code 1) with the offending length (60 R160). -/
def Status.invalidLength (len : BitVec 8) : Status :=
  { busy := false, done := false, err := true, ecode := 1#4, elen := len }

/-- The output level `busy` (R29). -/
def State.busyOut (s : State) : Bool := s.status.busy

/-- The output level `done` (R29). -/
def State.doneOut (s : State) : Bool := s.status.done

/-- The output level `err` (R29). -/
def State.errOut (s : State) : Bool := s.status.err

/-- The 33-bit response word: ERR above RDATA (30 R52). -/
def Response.word (r : Response) : BitVec 33 := BitVec.ofBool r.err ++ r.rdata

end Sys2Proof.Machine
end

