-- ==== Sys2Proof/Machine/Operands.lean ====
section
/-! DEFINITION. The engine's two addressing modes (spec 41_sequencer_microops.md R101; 10_state.md R21). -/

namespace Sys2Proof.Machine

/-- Row mode: entry `j` of row `r` is `blk[8r + j]`. -/
def rowIndex (r j : Fin 8) : Fin 64 := ⟨8 * r.val + j.val, by omega⟩

/-- Column mode: entry `j` of column `c` is `blk[8j + c]`. -/
def colIndex (c j : Fin 8) : Fin 64 := ⟨8 * j.val + c.val, by omega⟩

end Sys2Proof.Machine
end

