-- ==== Sys2Proof/Machine/Ops.lean ====
section
/-! DEFINITION. The shared operations: the block buffer's reads and writes, the responses of the host port, the one
architectural error and the return from it, the start and the end of a call, and reset. -/

namespace Sys2Proof.Machine

/-! ### The block buffer -/

/-- The canonical form from index `lo` on: indices strictly rising, below 64. -/
def Memory.wfFrom (lo : Nat) : Memory → Bool
  | [] => true
  | (i, _) :: m => decide (lo ≤ i) && decide (i < 64) && Memory.wfFrom (i + 1) m

/-- The canonical form: equal buffers are equal lists (log entry 1). -/
def Memory.wf (m : Memory) : Bool := Memory.wfFrom 0 m

/-- The word at an index, none if the entry has held no value since reset (10 R31). -/
def Memory.read (m : Memory) (i : Nat) : Option Word :=
  match m with
  | [] => none
  | (j, w) :: m => if j = i then some w else Memory.read m i

/-- The buffer with the word at one index replaced; keeps the canonical form. -/
def Memory.write (m : Memory) (i : Nat) (v : Word) : Memory :=
  match m with
  | [] => [(i, v)]
  | (j, w) :: m =>
    if i < j then (i, v) :: (j, w) :: m
    else if i = j then (i, v) :: m
    else (j, w) :: Memory.write m i v

/-- `blk[i]` as a signed integer, or the fault `UninitRead(i)` (00 R9, 60 R167). -/
def readEntry (m : Memory) (i : Fin 64) : Except Fault Int :=
  match Memory.read m i.val with
  | some w => .ok w.toInt
  | none => .error (.uninitRead i)

/-- The eight reads of a micro-operation, in the order `j = 0..7` (41 R95, 60 R168). -/
def readEight (m : Memory) (addr : Fin 8 → Fin 64) : Except Fault (Vector Int 8) := do
  let x0 ← readEntry m (addr 0)
  let x1 ← readEntry m (addr 1)
  let x2 ← readEntry m (addr 2)
  let x3 ← readEntry m (addr 3)
  let x4 ← readEntry m (addr 4)
  let x5 ← readEntry m (addr 5)
  let x6 ← readEntry m (addr 6)
  let x7 ← readEntry m (addr 7)
  return #v[x0, x1, x2, x3, x4, x5, x6, x7]

/-- Writes to a list of places, first one first. -/
def writeList (addr : Fin 8 → Fin 64) (y : Vector Int 8) : List (Fin 8) → Memory → Memory
  | [], m => m
  | j :: js, m => writeList addr y js (Memory.write m (addr j).val (Word.ofInt y[j]))

/-- The eight writes of a micro-operation. -/
def writeEight (m : Memory) (addr : Fin 8 → Fin 64) (y : Vector Int 8) : Memory :=
  writeList addr y [0, 1, 2, 3, 4, 5, 6, 7] m

/-! ### Responses of the host port (30 R52) -/

/-- `OKAY(v)`. A write answers `OKAY(0)`. -/
def Response.okay (v : Word) : Response := { err := false, rdata := v }

/-- `ERROR`: RDATA is 0. -/
def Response.error : Response := { err := true, rdata := 0#32 }

/-- The command is performed: its change of the state stands and the response is `OKAY(v)`. -/
def respondOkay (v : Word) (s : State) : Host.Outcome State Fault Refusal :=
  .next { s with resp := some (Response.okay v) }

/-- The bus refusal: response ERROR, no state change whatsoever (40 R78, 60 R162). -/
def respondError (s : State) : Host.Outcome State Fault Refusal :=
  .next { s with resp := some Response.error }

/-! ### The architectural error, the call, reset -/

/-- Taking the one architectural error INVALID_LENGTH: STATUS records it and nothing else changes (60 R160). -/
def raiseInvalidLength (len : BitVec 8) (s : State) : State := { s with status := Status.invalidLength len }

/-- The return from it, and the acknowledgement of a completed call: STATUS becomes IDLE (60 R173, 40 R75). -/
def acknowledge (s : State) : State := { s with status := Status.idle }

/-- The start of a call: STATUS becomes BUSY and the sequencer stands at `ROW 0` (40 R74). -/
def beginCall (s : State) : State := { s with status := Status.running, seq := 0#5 }

/-- The end of a call: STATUS becomes DONE and the sequencer 0 (41 R94). -/
def completeCall (s : State) : State := { s with status := Status.completed, seq := 0#5 }

/-- The platform's reset: `seq` and STATUS 0, every entry without a value; the moves still to come stay, and no
command has been answered since (70 R190, R191; log entry 11). -/
def platformReset (s : State) : State :=
  { s with blk := [], seq := 0#5, status := Status.idle, resp := none }

end Sys2Proof.Machine
end

