-- ==== Sys2Proof/Machine/Rom.lean ====
section
/-! DEFINITION. `scaled_constant_rom`: the 13 constants by index (spec 44_constant_rom.md R150). The values are the
spec's general-knowledge passage GK1 (log entry 16). A constant function, not a field of the state (R154). -/

namespace Sys2Proof.Machine

/-- `ROM[k]`. -/
def rom : Fin 13 → Nat
  | 0 => 2841   -- W1
  | 1 => 2676   -- W2
  | 2 => 2408   -- W3
  | 3 => 1609   -- W5
  | 4 => 1108   -- W6
  | 5 => 565    -- W7
  | 6 => 3406   -- W1pW7
  | 7 => 2276   -- W1mW7
  | 8 => 4017   -- W3pW5
  | 9 => 799    -- W3mW5
  | 10 => 3784  -- W2pW6
  | 11 => 1568  -- W2mW6
  | 12 => 181   -- R2

/-- The index a read of the ROM window names: 0 to 12; 13 to 15 hold nothing (R155). -/
def romIndex (k : Fin 16) : Option (Fin 13) := if h : k.val < 13 then some ⟨k.val, h⟩ else none

end Sys2Proof.Machine
end

