-- ==== Sys2Proof/Machine/HostOps.lean ====
section
/-! DEFINITION. The meanings of the host commands (spec 40_host_interface_ops.md). Each is one atomic step: it gives a
response and, only if that is OKAY, makes its change of the state (R72). -/

namespace Sys2Proof.Machine

/-- `WR_BLK i, v` (R70): refused while the engine owns the block, else the entry holds `v`. -/
def execWrBlk (i : Fin 64) (v : Word) (s : State) : Host.Outcome State Fault Refusal :=
  if s.status.busy then respondError s
  else respondOkay 0#32 { s with blk := Memory.write s.blk i.val v }

/-- `RD_BLK i` (R71): refused while the engine owns the block; an entry without a value is the model fault
UninitRead. -/
def execRdBlk (i : Fin 64) (s : State) : Host.Outcome State Fault Refusal :=
  if s.status.busy then respondError s
  else
    match Memory.read s.blk i.val with
    | some w => respondOkay w s
    | none => .fault (.uninitRead i)

/-- `CTRL_NOP` (R73): accepted in every state, changes nothing. -/
def execCtrlNop (s : State) : Host.Outcome State Fault Refusal := respondOkay 0#32 s

/-- `START len` (R74): refused during a call; a length other than 64 is INVALID_LENGTH, answered OKAY; else the call
begins. The block is not read. -/
def execStart (len : BitVec 8) (s : State) : Host.Outcome State Fault Refusal :=
  if s.status.busy then respondError s
  else if len = Config.legalLen then respondOkay 0#32 (beginCall s)
  else respondOkay 0#32 (raiseInvalidLength len s)

/-- `CLEAR` (R75): refused during a call, else STATUS becomes IDLE. -/
def execClear (s : State) : Host.Outcome State Fault Refusal :=
  if s.status.busy then respondError s else respondOkay 0#32 (acknowledge s)

/-- `RD_STATUS` (R76): the status word, in every state, without side effect. -/
def execRdStatus (s : State) : Host.Outcome State Fault Refusal := respondOkay s.status.word s

/-- `RD_ROM k` (R77): the constant zero-extended, in every state; indices 13 to 15 are reserved addresses (R78,
44 R155). -/
def execRdRom (k : Fin 16) (s : State) : Host.Outcome State Fault Refusal :=
  match romIndex k with
  | some k => respondOkay (BitVec.ofNat 32 (rom k)) s
  | none => respondError s

end Sys2Proof.Machine
end

