-- ==== Sys2Proof/Machine/Arith.lean ====
section
/-! DEFINITION. The datapath's primitives over the integers (spec 00_scope.md R9 to R13). -/

namespace Sys2Proof.Machine

/-- "Fits": lies in `[INT32_MIN, INT32_MAX]` (R8), the node width `XW` being 32 bits (R7, R10). -/
abbrev Fits (v : Int) : Prop := -2147483648 ≤ v ∧ v ≤ 2147483647

/-- `chk`: the value of a node if it fits, else the fault `Overflow(node)`; nothing wraps (R10). -/
def chk (n : Node) (v : Int) : Except Fault Int := if Fits v then .ok v else .error (.overflow n)

/-- Left shift: checked multiplication by `2^k`, for every sign (R12). -/
def shl (n : Node) (v : Int) (k : Nat) : Except Fault Int := chk n (v * 2 ^ k)

/-- Arithmetic right shift: floor division by `2^k` (R13). -/
def sar (v : Int) (k : Nat) : Int := v / 2 ^ k

/-- A ROM constant times a node, exact and checked (R11, 44 R152). -/
def mulRom (n : Node) (k : Fin 13) (v : Int) : Except Fault Int := chk n ((rom k : Int) * v)

end Sys2Proof.Machine
end

