-- ==== Sys2Proof/Machine/Butterfly.lean ====
section
/-! DEFINITION. `fixed_point_dct_butterfly`: row mode (spec 42_butterfly_row_pass.md R110 to R116) and column mode
(43_butterfly_column_pass.md R130 to R135), node by node in the order of the rules, so that the first node that does
not fit is the one reported (60 R168). What the two modes share (43 R139) is written once. The equations are the spec's
general-knowledge passage GK2 (log entry 16). -/

namespace Sys2Proof.Machine

/-- The values after the prescale (R112, R131). -/
structure Prescaled where
  a0 : Int
  a1 : Int
  a2 : Int
  a3 : Int
  a4 : Int
  a5 : Int
  a6 : Int
  a7 : Int
deriving DecidableEq, Repr

/-- The two odd rotations after stage 1 (R113, R132). -/
structure Rotated where
  b4 : Int
  b5 : Int
  b6 : Int
  b7 : Int
deriving DecidableEq, Repr

/-- The values after stage 2 (R114, R133). -/
structure Recombined where
  c0 : Int
  c1 : Int
  c2 : Int
  c3 : Int
  c4 : Int
  c5 : Int
  c6 : Int
  c8 : Int
deriving DecidableEq, Repr

/-- The eight terms that stage 4 pairs (R115, R134). -/
structure FinalTerms where
  d7 : Int
  c1 : Int
  d3 : Int
  d2 : Int
  d0 : Int
  d4 : Int
  d8 : Int
  c6 : Int
deriving DecidableEq, Repr

/-- Prescale and input assignment, by shift and bias: 11 and 128 in row mode (R112), 8 and 8192 in column mode
(R131). -/
def prescale (shift : Nat) (bias : Int) (x : Vector Int 8) : Except Fault Prescaled := do
  let p0 ← shl .p0 x[0] shift
  let a0 ← chk .a0 (p0 + bias)
  let a1 ← shl .a1 x[4] shift
  return { a0, a1, a2 := x[6], a3 := x[2], a4 := x[1], a5 := x[7], a6 := x[5], a7 := x[3] }

/-- Stage 1 in row mode (R113). -/
def stage1Row (a : Prescaled) : Except Fault Rotated := do
  let s1 ← chk .s1 (a.a4 + a.a5)
  let t1 ← mulRom .t1 5 s1
  let m4 ← mulRom .m4 7 a.a4
  let m5 ← mulRom .m5 6 a.a5
  let b4 ← chk .b4 (t1 + m4)
  let b5 ← chk .b5 (t1 - m5)
  let s2 ← chk .s2 (a.a6 + a.a7)
  let t2 ← mulRom .t2 2 s2
  let m6 ← mulRom .m6 9 a.a6
  let m7 ← mulRom .m7 8 a.a7
  let b6 ← chk .b6 (t2 - m6)
  let b7 ← chk .b7 (t2 - m7)
  return { b4, b5, b6, b7 }

/-- Stage 1 in column mode: the bias 4 on each shared product, and a shift by 3 (R132). -/
def stage1Col (a : Prescaled) : Except Fault Rotated := do
  let s1 ← chk .s1 (a.a4 + a.a5)
  let t1 ← mulRom .t1 5 s1
  let t1b ← chk .t1b (t1 + 4)
  let m4 ← mulRom .m4 7 a.a4
  let m5 ← mulRom .m5 6 a.a5
  let u4 ← chk .u4 (t1b + m4)
  let u5 ← chk .u5 (t1b - m5)
  let s2 ← chk .s2 (a.a6 + a.a7)
  let t2 ← mulRom .t2 2 s2
  let t2b ← chk .t2b (t2 + 4)
  let m6 ← mulRom .m6 9 a.a6
  let m7 ← mulRom .m7 8 a.a7
  let u6 ← chk .u6 (t2b - m6)
  let u7 ← chk .u7 (t2b - m7)
  return { b4 := sar u4 3, b5 := sar u5 3, b6 := sar u6 3, b7 := sar u7 3 }

/-- The recombination of the odd terms that ends stage 2 in both modes (R114, R133). -/
def recombineOdd (c8 c0 c2 c3 : Int) (b : Rotated) : Except Fault Recombined := do
  let c1 ← chk .c1 (b.b4 + b.b6)
  let c4 ← chk .c4 (b.b4 - b.b6)
  let c6 ← chk .c6 (b.b5 + b.b7)
  let c5 ← chk .c5 (b.b5 - b.b7)
  return { c0, c1, c2, c3, c4, c5, c6, c8 }

/-- Stage 2 in row mode (R114). -/
def stage2Row (a : Prescaled) (b : Rotated) : Except Fault Recombined := do
  let c8 ← chk .c8 (a.a0 + a.a1)
  let c0 ← chk .c0 (a.a0 - a.a1)
  let s3 ← chk .s3 (a.a3 + a.a2)
  let t3 ← mulRom .t3 4 s3
  let m2 ← mulRom .m2 10 a.a2
  let m3 ← mulRom .m3 11 a.a3
  let c2 ← chk .c2 (t3 - m2)
  let c3 ← chk .c3 (t3 + m3)
  recombineOdd c8 c0 c2 c3 b

/-- Stage 2 in column mode: the bias 4 and the shift by 3 on the even rotation (R133). -/
def stage2Col (a : Prescaled) (b : Rotated) : Except Fault Recombined := do
  let c8 ← chk .c8 (a.a0 + a.a1)
  let c0 ← chk .c0 (a.a0 - a.a1)
  let s3 ← chk .s3 (a.a3 + a.a2)
  let t3 ← mulRom .t3 4 s3
  let t3b ← chk .t3b (t3 + 4)
  let m2 ← mulRom .m2 10 a.a2
  let m3 ← mulRom .m3 11 a.a3
  let u2 ← chk .u2 (t3b - m2)
  let u3 ← chk .u3 (t3b + m3)
  recombineOdd c8 c0 (sar u2 3) (sar u3 3) b

/-- Stage 3, the same in both modes (R115, R134). -/
def stage3 (c : Recombined) : Except Fault FinalTerms := do
  let d7 ← chk .d7 (c.c8 + c.c3)
  let d8 ← chk .d8 (c.c8 - c.c3)
  let d3 ← chk .d3 (c.c0 + c.c2)
  let d0 ← chk .d0 (c.c0 - c.c2)
  let s4 ← chk .s4 (c.c4 + c.c5)
  let q2 ← mulRom .q2 12 s4
  let g2 ← chk .g2 (q2 + 128)
  let s5 ← chk .s5 (c.c4 - c.c5)
  let q4 ← mulRom .q4 12 s5
  let g4 ← chk .g4 (q4 + 128)
  return { d7, c1 := c.c1, d3, d2 := sar g2 8, d0, d4 := sar g4 8, d8, c6 := c.c6 }

/-- Stage 4 by its output shift: 8 in row mode (R116), 14 in column mode (R135). -/
def stage4 (shift : Nat) (d : FinalTerms) : Except Fault (Vector Int 8) := do
  let e0 ← chk .e0 (d.d7 + d.c1)
  let e1 ← chk .e1 (d.d3 + d.d2)
  let e2 ← chk .e2 (d.d0 + d.d4)
  let e3 ← chk .e3 (d.d8 + d.c6)
  let e4 ← chk .e4 (d.d8 - d.c6)
  let e5 ← chk .e5 (d.d0 - d.d4)
  let e6 ← chk .e6 (d.d3 - d.d2)
  let e7 ← chk .e7 (d.d7 - d.c1)
  return #v[sar e0 shift, sar e1 shift, sar e2 shift, sar e3 shift, sar e4 shift, sar e5 shift, sar e6 shift,
    sar e7 shift]

/-- The general path of row mode (R112 to R116). -/
def rowGeneral (x : Vector Int 8) : Except Fault (Vector Int 8) := do
  let a ← prescale 11 128 x
  let b ← stage1Row a
  let c ← stage2Row a b
  let d ← stage3 c
  stage4 8 d

/-- The fast path: every output is the DC entry shifted left by 3 (R111). -/
def rowFast (x : Vector Int 8) : Except Fault (Vector Int 8) := do
  let f0 ← shl .f0 x[0] 3
  return #v[f0, f0, f0, f0, f0, f0, f0, f0]

/-- The seven AC entries are zero: the test on the raw inputs that selects the fast path (R110). -/
abbrev AcZero (x : Vector Int 8) : Prop :=
  x[1] = 0 ∧ x[2] = 0 ∧ x[3] = 0 ∧ x[4] = 0 ∧ x[5] = 0 ∧ x[6] = 0 ∧ x[7] = 0

/-- Row mode (R110). -/
def bflyRow (x : Vector Int 8) : Except Fault (Vector Int 8) := if AcZero x then rowFast x else rowGeneral x

/-- Column mode: always the general path (R130 to R135). -/
def bflyCol (x : Vector Int 8) : Except Fault (Vector Int 8) := do
  let a ← prescale 8 8192 x
  let b ← stage1Col a
  let c ← stage2Col a b
  let d ← stage3 c
  stage4 14 d

end Sys2Proof.Machine
end

