-- ==== Sys2Proof/Machine/MicroOps.lean ====
section
/-! DEFINITION. The meanings of the engine's micro-operations (spec 41_sequencer_microops.md R92 to R95). When a
micro-operation is performed is the fetch's business (R90, `Machine/Fetch.lean`). -/

namespace Sys2Proof.Machine

/-- One butterfly in place: eight reads, the butterfly, eight writes, then the sequencer advances (R92, R93, R95). On a
fault nothing is written. -/
def butterflyInPlace (addr : Fin 8 → Fin 64) (bfly : Vector Int 8 → Except Fault (Vector Int 8)) (s : State) :
    Host.Outcome State Fault Refusal :=
  match readEight s.blk addr with
  | .error f => .fault f
  | .ok x =>
    match bfly x with
    | .error f => .fault f
    | .ok y => .next { s with blk := writeEight s.blk addr y, seq := s.seq + 1#5 }

/-- `ROW r` (R92). -/
def execRow (r : Fin 8) (s : State) : Host.Outcome State Fault Refusal := butterflyInPlace (rowIndex r) bflyRow s

/-- `COL c` (R93). -/
def execCol (c : Fin 8) (s : State) : Host.Outcome State Fault Refusal := butterflyInPlace (colIndex c) bflyCol s

/-- `END` (R94): the block returns to the host. -/
def execEndCall (s : State) : Host.Outcome State Fault Refusal := .next (completeCall s)

end Sys2Proof.Machine
end

