-- ==== Sys2Proof/Machine/Dispatch.lean ====
section
/-! DEFINITION. One arm per constructor of `Instr`, each one direct call of its meaning. -/

namespace Sys2Proof.Machine

def exec (i : Instr) (s : State) : Host.Outcome State Fault Refusal :=
  match i with
  | .wrBlk k v => Sys2Proof.Machine.execWrBlk k v s
  | .rdBlk k => Sys2Proof.Machine.execRdBlk k s
  | .ctrlNop => Sys2Proof.Machine.execCtrlNop s
  | .start len => Sys2Proof.Machine.execStart len s
  | .clear => Sys2Proof.Machine.execClear s
  | .rdStatus => Sys2Proof.Machine.execRdStatus s
  | .rdRom k => Sys2Proof.Machine.execRdRom k s
  | .row r => Sys2Proof.Machine.execRow r s
  | .col c => Sys2Proof.Machine.execCol c s
  | .endCall => Sys2Proof.Machine.execEndCall s

end Sys2Proof.Machine
end

