-- ==== Sys2Proof/WellFormed.lean ====
section
/-! DEFINITION. Which terms of `Instr` are instructions: the one operand whose field holds more values than the
instruction admits is the ROM index (spec 30_encoding.md R53, R54: `k ≤ 12`). -/

namespace Sys2Proof

/-- Every operand lies in the range the spec gives it. Block indices, row and column numbers, the written word and
`LEN` fill their fields; the ROM index does not. -/
def Instr.wellFormed : Instr → Bool
  | .wrBlk _ _ => true
  | .rdBlk _ => true
  | .ctrlNop => true
  | .start _ => true
  | .clear => true
  | .rdStatus => true
  | .rdRom k => decide (k.val ≤ 12)
  | .row _ => true
  | .col _ => true
  | .endCall => true

end Sys2Proof
end

