-- ==== Sys2Proof/Decode.lean ====
section
/-! DEFINITION. Decoding of host command words (format H, spec 30_encoding.md R51, R53 to R56) and of micro-operation
words (format U, R57), total and rejecting by name; then the encoder; then the opcode table as data. -/

namespace Sys2Proof

/-- Why a word is no instruction. The first four are the encoding's causes of a bus refusal (60 R162). -/
inductive DecodeError where
  /-- An access to `0x42..0x4F` or `0x5D..0x7F`. -/
  | reservedAddr
  /-- A read of CTRL. -/
  | writeOnly
  /-- A write of STATUS or of the ROM window. -/
  | readOnly
  /-- A write of CTRL whose word is malformed (R55). -/
  | badCtrl
  /-- A format U word 17 to 31 (R57). -/
  | reservedMicroOp
deriving DecidableEq, Repr

/-! ### Fields of format H (R51) -/

/-- `W`: true for a write. -/
def fieldW (w : BitVec 40) : Bool := w.getLsbD 39

/-- `ADDR`. -/
def fieldAddr (w : BitVec 40) : BitVec 7 := w.extractLsb' 32 7

/-- `DATA`. -/
def fieldData (w : BitVec 40) : Word := w.extractLsb' 0 32

/-- The block index `ADDR[5:0]` (R54). -/
def fieldBlockIndex (addr : BitVec 7) : Fin 64 := ⟨(addr.extractLsb' 0 6).toNat, (addr.extractLsb' 0 6).isLt⟩

/-- The ROM index `ADDR[3:0]` (R54). -/
def fieldRomIndex (addr : BitVec 7) : Fin 16 := ⟨(addr.extractLsb' 0 4).toNat, (addr.extractLsb' 0 4).isLt⟩

/-- `LEN` of a CTRL word (R55). -/
def fieldLen (data : Word) : BitVec 8 := data.extractLsb' 8 8

/-- `CMD` of a CTRL word (R55). -/
def fieldCmd (data : Word) : BitVec 2 := data.extractLsb' 0 2

/-- The reserved bits `[31:16]` and `[7:2]` of a CTRL word are zero (R55). -/
def ctrlReservedZero (data : Word) : Bool := data.extractLsb' 16 16 == 0#16 && data.extractLsb' 2 6 == 0#6

/-! ### Decoding -/

/-- A write to CTRL, by its data word (R55). -/
def decodeCtrl (data : Word) : Except DecodeError Instr :=
  if ctrlReservedZero data then
    if fieldCmd data = 0#2 then .ok .ctrlNop
    else if fieldCmd data = 1#2 then .ok (.start (fieldLen data))
    else if fieldCmd data = 2#2 then .ok .clear
    else .error .badCtrl
  else .error .badCtrl

/-- Format H: by `W` and `ADDR` first, then, for a write to CTRL, by `DATA` (R53). -/
def decodeCommand (w : BitVec 40) : Except DecodeError Instr :=
  let addr := fieldAddr w
  if addr < Config.ctrlAddr then
    if fieldW w then .ok (.wrBlk (fieldBlockIndex addr) (fieldData w)) else .ok (.rdBlk (fieldBlockIndex addr))
  else if addr = Config.ctrlAddr then
    if fieldW w then decodeCtrl (fieldData w) else .error .writeOnly
  else if addr = Config.statusAddr then
    if fieldW w then .error .readOnly else .ok .rdStatus
  else if Config.romBase ≤ addr ∧ addr ≤ Config.romLast then
    if fieldW w then .error .readOnly else .ok (.rdRom (fieldRomIndex addr))
  else .error .reservedAddr

/-- `IDX` of format U (R57). -/
def fieldIdx (u : BitVec 5) : Fin 8 := ⟨(u.extractLsb' 0 3).toNat, (u.extractLsb' 0 3).isLt⟩

/-- Format U: `E`, then `P`, then `IDX`; with `E` set every other bit must be 0 (R57). -/
def decodeMicroOp (u : BitVec 5) : Except DecodeError Instr :=
  if u.getLsbD 4 then
    if u.extractLsb' 0 4 = 0#4 then .ok .endCall else .error .reservedMicroOp
  else if u.getLsbD 3 then .ok (.col (fieldIdx u))
  else .ok (.row (fieldIdx u))

/-- Both formats. -/
def decode : Encoded → Except DecodeError Instr
  | .command w => decodeCommand w
  | .microOp u => decodeMicroOp u

/-- The instruction a word gives, none where the decoder refuses. -/
def decoded? : Except DecodeError Instr → Option Instr
  | .ok i => some i
  | .error _ => none

/-- The instruction of a word numbered as the opcode table numbers it: a row of at most 8 bits is a format U word
(5 bits, the rest zero), any longer row a format H word of 40 bits. -/
def decodeTableWord (nbits w : Nat) : Option Instr :=
  if nbits ≤ 8 then
    if w < 2 ^ 5 then decoded? (decodeMicroOp (BitVec.ofNat 5 w)) else none
  else if w < 2 ^ 40 then decoded? (decodeCommand (BitVec.ofNat 40 w)) else none

/-! ### Encoding -/

/-- `{W, ADDR, DATA}` (R51). -/
def commandWord (wr : Bool) (addr : BitVec 7) (data : Word) : BitVec 40 := BitVec.ofBool wr ++ addr ++ data

/-- The CTRL data word of a command (R55). -/
def ctrlWord (len : BitVec 8) (cmd : BitVec 2) : Word := 0#16 ++ len ++ 0#6 ++ cmd

/-- The word of an instruction; ignored bits are 0, as the assembler emits them (R51, R60). -/
def encode : Instr → Encoded
  | .wrBlk i v => .command (commandWord true (BitVec.ofNat 7 i.val) v)
  | .rdBlk i => .command (commandWord false (BitVec.ofNat 7 i.val) 0#32)
  | .ctrlNop => .command (commandWord true Config.ctrlAddr (ctrlWord 0#8 0#2))
  | .start len => .command (commandWord true Config.ctrlAddr (ctrlWord len 1#2))
  | .clear => .command (commandWord true Config.ctrlAddr (ctrlWord 0#8 2#2))
  | .rdStatus => .command (commandWord false Config.statusAddr 0#32)
  | .rdRom k => .command (commandWord false (Config.romBase + BitVec.ofNat 7 k.val) 0#32)
  | .row r => .microOp (BitVec.ofNat 5 r.val)
  | .col c => .microOp (BitVec.ofNat 5 (8 + c.val))
  | .endCall => .microOp 16#5

/-! ### The opcode table as masks and matches (R53, R57) -/

/-- One pattern: a word `w` is of the row iff `w &&& mask = pattern`. -/
structure OpcodeRow where
  mnemonic : String
  mask : BitVec 40
  pattern : BitVec 40
deriving DecidableEq, Repr

/-- A word is of the row. -/
def OpcodeRow.selects (row : OpcodeRow) (w : BitVec 40) : Bool := w &&& row.mask == row.pattern

/-- The masks and matches of format H, RD_ROM as its three exact patterns (R53). -/
def commandTable : List OpcodeRow :=
  [ ⟨"WR_BLK", 0xC000000000#40, 0x8000000000#40⟩,
    ⟨"RD_BLK", 0xC000000000#40, 0x0000000000#40⟩,
    ⟨"CTRL_NOP", 0xFFFFFF00FF#40, 0xC000000000#40⟩,
    ⟨"START", 0xFFFFFF00FF#40, 0xC000000001#40⟩,
    ⟨"CLEAR", 0xFFFFFF00FF#40, 0xC000000002#40⟩,
    ⟨"RD_STATUS", 0xFF00000000#40, 0x4100000000#40⟩,
    ⟨"RD_ROM", 0xF800000000#40, 0x5000000000#40⟩,
    ⟨"RD_ROM", 0xFC00000000#40, 0x5800000000#40⟩,
    ⟨"RD_ROM", 0xFF00000000#40, 0x5C00000000#40⟩ ]

/-- The bits of a command word that the instruction does not ignore (R56: DATA of every read, LEN of CTRL_NOP and
CLEAR are ignored). Micro-operation words have no ignored bit. -/
def Instr.significant : Instr → BitVec 40
  | .wrBlk _ _ => 0xFFFFFFFFFF#40
  | .rdBlk _ => 0xFF00000000#40
  | .ctrlNop => 0xFFFFFF00FF#40
  | .start _ => 0xFFFFFFFFFF#40
  | .clear => 0xFFFFFF00FF#40
  | .rdStatus => 0xFF00000000#40
  | .rdRom _ => 0xFF00000000#40
  | .row _ => 0x1F#40
  | .col _ => 0x1F#40
  | .endCall => 0x1F#40

end Sys2Proof
end

