-- ==== Sys2Proof/Machine/Fetch.lean ====
section
/-! DEFINITION. What the machine does next (spec 00_scope.md R14; 41_sequencer_microops.md R90): the first pending
input decides, and when none is pending the engine has its turn (weak fairness, log entry 4). Placing a word where the
next step fetches it is here as well. -/

namespace Sys2Proof.Machine

/-- The next move, with the state in which it is made (the input that decided it already taken). -/
inductive Action where
  /-- Perform one instruction. -/
  | perform (i : Instr) (s : State)
  /-- Refuse an illegal command word (40 R78). -/
  | refuseCommand (e : DecodeError) (s : State)
  /-- The platform resets the engine. -/
  | resetAll (s : State)
  /-- The engine has its turn and no enabled step: nothing moves (41 R90). -/
  | idle (s : State)
  /-- The sequencer holds a word that is no micro-operation (30 R57). -/
  | stuck (u : BitVec 5)
deriving DecidableEq, Repr

/-- The engine's turn: a step exactly when BUSY, the micro-operation whose word equals `seq` (41 R90). -/
def engineAction (s : State) : Action :=
  if s.status.busy then
    match decodeMicroOp s.seq with
    | .ok i => .perform i s
    | .error _ => .stuck s.seq
  else .idle s

/-- The host's turn: the command word decoded (30 R53). -/
def commandAction (w : BitVec 40) (s : State) : Action :=
  match decodeCommand w with
  | .ok i => .perform i s
  | .error e => .refuseCommand e s

/-- The next move of a state. -/
def nextAction (s : State) : Action :=
  match s.inputs with
  | [] => engineAction s
  | .engineTurn :: rest => engineAction { s with inputs := rest }
  | .command w :: rest => commandAction w { s with inputs := rest }
  | .reset :: rest => .resetAll { s with inputs := rest }

/-- A host command word becomes the next input. -/
def placeCommand (s : State) (w : BitVec 40) : State := { s with inputs := .command w :: s.inputs }

/-- A micro-operation word becomes the engine's next: `seq` holds it, a call is running, and the engine has the next
turn (log entry 7). -/
def placeMicroOp (s : State) (u : BitVec 5) : State :=
  { s with seq := u, status := Status.running, inputs := .engineTurn :: s.inputs }

/-- The word of an opcode-table row placed where the next step fetches: a row of at most 8 bits is format U. -/
def placeTableWord (s : State) (nbits w : Nat) : State :=
  if nbits ≤ 8 then placeMicroOp s (BitVec.ofNat 5 w) else placeCommand s (BitVec.ofNat 40 w)

end Sys2Proof.Machine
end

