-- ==== Sys2Proof/Machine/Step.lean ====
section
/-! DEFINITION. One step: one host transaction, one micro-operation, one reset, or an idle turn of the engine. -/

namespace Sys2Proof.Machine

/-- One step of the machine. -/
def step (s : State) : Host.Outcome State Fault Refusal :=
  match nextAction s with
  | .perform i t => exec i t
  | .refuseCommand _ t => respondError t
  | .resetAll t => .next (platformReset t)
  | .idle t => .next t
  | .stuck u => .refused (.reservedMicroOp u)

/-- The state with an instruction's word stored where the next step fetches it. -/
def State.withFetchWord (s : State) (nbits w : Nat) : State := placeTableWord s nbits w

end Sys2Proof.Machine
end

