-- ==== Sys2Proof/Machine/Assembler.lean ====
section
/-! DEFINITION. The assembler notation of host programs and the expansion of its pseudo-instructions (spec
30_encoding.md R60). `RESET` is no command word but an input of the platform. Where the engine's steps fall among a
program's commands the spec leaves free (93 U13, 41 R90): it is an argument of `assemble` (log entry 18). -/

namespace Sys2Proof.Machine

/-- One line of a host program. -/
inductive AsmLine where
  /-- `WR BLK[i], v`. -/
  | wr (i : Fin 64) (v : Int)
  /-- `RD BLK[i]`. -/
  | rd (i : Fin 64)
  /-- `NOP`. -/
  | nop
  /-- `START len`. -/
  | start (len : BitVec 8)
  /-- `CLEAR`. -/
  | clear
  /-- `RD STATUS`. -/
  | rdStatus
  /-- `RD ROM[k]`. -/
  | rdRom (k : Fin 13)
  /-- `RAW w`: any word. -/
  | raw (w : BitVec 40)
  /-- `LOAD v0, ..., v63`: 64 writes in index order. -/
  | load (v : Vector Int 64)
  /-- `WAIT`: as many polls of STATUS as the run needs, given here as a number (log entry 17). -/
  | wait (polls : Nat)
  /-- `IDCT`: `START 64`, then `WAIT`. -/
  | idct (polls : Nat)
  /-- `DUMP`: 64 reads in index order. -/
  | dump
  /-- `RESET`: no command word, the platform's reset (70 R190). -/
  | reset
deriving DecidableEq, Repr

/-- `{1, i, v mod 2^32}`. -/
def asmWr (i : Fin 64) (v : Int) : BitVec 40 := commandWord true (BitVec.ofNat 7 i.val) (Word.ofInt v)

/-- `{0, i, 0}`. -/
def asmRd (i : Fin 64) : BitVec 40 := commandWord false (BitVec.ofNat 7 i.val) 0#32

/-- `0xC000000001 + 256·len`. -/
def asmStart (len : BitVec 8) : BitVec 40 := 0xC000000001#40 + BitVec.ofNat 40 (256 * len.toNat)

/-- The read of STATUS. -/
def asmRdStatus : BitVec 40 := 0x4100000000#40

/-- The command words a line stands for, in order. -/
def AsmLine.words : AsmLine → List (BitVec 40)
  | .wr i v => [asmWr i v]
  | .rd i => [asmRd i]
  | .nop => [0xC000000000#40]
  | .start len => [asmStart len]
  | .clear => [0xC000000002#40]
  | .rdStatus => [asmRdStatus]
  | .rdRom k => [commandWord false (BitVec.ofNat 7 (0x50 + k.val)) 0#32]
  | .raw w => [w]
  | .load v => (List.finRange 64).map fun i => asmWr i v[i]
  | .wait polls => List.replicate polls asmRdStatus
  | .idct polls => asmStart 64#8 :: List.replicate polls asmRdStatus
  | .dump => (List.finRange 64).map asmRd
  | .reset => []

/-- The moves of host and platform a line stands for, in order. -/
def AsmLine.moves : AsmLine → List Input
  | .reset => [.reset]
  | line => line.words.map Input.command

/-- Moves with turns of the engine among them: the n-th number of the list is how many turns come before the n-th move;
no number, no turn. -/
def interleave : List Nat → List Input → List Input
  | _, [] => []
  | [], m :: ms => m :: ms
  | k :: ks, m :: ms => List.replicate k .engineTurn ++ m :: interleave ks ms

/-- A host program as inputs of the machine, with the engine's turns where `turns` puts them: the spec leaves their
place and number free, so they are an argument and nothing fixes them (log entry 18). -/
def assemble (turns : List Nat) (program : List AsmLine) : List Input :=
  interleave turns (program.flatMap AsmLine.moves)

end Sys2Proof.Machine
end

