-- ==== Sys2Proof/Machine/Fleet.lean ====
section
/-! DEFINITION. Several engine instances (spec 20_memory.md R45; 60_exceptions.md R174): the product of independent
copies of the one-instance machine. The parameter `N_ENGINES` is the length of the list (log entry 15). -/

namespace Sys2Proof.Machine

/-- One instance as a whole-machine observer sees it: running, or stopped by its own fault or refusal. -/
inductive Engine where
  /-- The instance goes on from this state. -/
  | running (s : State)
  /-- The instance has stopped in a model fault; there is no later state of it (60 R168). -/
  | faulted (f : Fault)
  /-- The instance has stopped in a refusal. -/
  | refused (r : Refusal)
deriving DecidableEq, Repr

/-- One step of one instance; a stopped one stays as it is. -/
def Engine.step : Engine → Engine
  | .running s =>
    match Sys2Proof.Machine.step s with
    | .next t => .running t
    | .fault f => .faulted f
    | .refused r => .refused r
  | .faulted f => .faulted f
  | .refused r => .refused r

/-- `n` steps of one instance alone. -/
def Engine.run : Nat → Engine → Engine
  | 0, e => e
  | n + 1, e => Engine.run n e.step

/-- `N_ENGINES` instances after reset. -/
def fleetReset (n : Nat) : List Engine := List.replicate n (.running State.reset)

/-- Instance `k` takes one step; whatever becomes of it, every other stays as it is. An instance that does not exist
does nothing. -/
def fleetStep (engines : List Engine) (k : Nat) : List Engine :=
  match engines[k]? with
  | none => engines
  | some e => engines.set k e.step

/-- The instances step in the order of a schedule, any order being allowed (60 R174). -/
def fleetRun : List Nat → List Engine → List Engine
  | [], engines => engines
  | k :: schedule, engines => fleetRun schedule (fleetStep engines k)

end Sys2Proof.Machine
end

