-- ==== Sys2Proof/Safety.lean ====
section
/-! DEFINITION. The terms the claims use: the exact value of every node over the integers, legal rows, columns and
blocks (spec 41_sequencer_microops.md R96), the function a call computes (R96), the invariant of every run, the state
of a running call (R97), and the causes of a bus refusal (60_exceptions.md R162). -/

namespace Sys2Proof

open Machine

/-! ### Exact node values

The rotations are written in the closed forms that R113, R114, R132 and R133 give beside their three-product forms. -/

/-- Prescale nodes, by scale and bias. -/
def prescaleChecks (scale bias x0 x4 : Int) : List (Node × Int) :=
  [(.p0, scale * x0), (.a0, scale * x0 + bias), (.a1, scale * x4)]

/-- Stage 1 nodes of row mode (R113). -/
def rotationChecksRow (x1 x3 x5 x7 : Int) : List (Node × Int) :=
  [ (.s1, x1 + x7), (.t1, 565 * (x1 + x7)), (.m4, 2276 * x1), (.m5, 3406 * x7),
    (.b4, 2841 * x1 + 565 * x7), (.b5, 565 * x1 - 2841 * x7),
    (.s2, x5 + x3), (.t2, 2408 * (x5 + x3)), (.m6, 799 * x5), (.m7, 4017 * x3),
    (.b6, 1609 * x5 + 2408 * x3), (.b7, 2408 * x5 - 1609 * x3) ]

/-- Stage 1 nodes of column mode (R132). -/
def rotationChecksCol (x1 x3 x5 x7 : Int) : List (Node × Int) :=
  [ (.s1, x1 + x7), (.t1, 565 * (x1 + x7)), (.t1b, 565 * (x1 + x7) + 4),
    (.m4, 2276 * x1), (.m5, 3406 * x7),
    (.u4, 2841 * x1 + 565 * x7 + 4), (.u5, 565 * x1 - 2841 * x7 + 4),
    (.s2, x5 + x3), (.t2, 2408 * (x5 + x3)), (.t2b, 2408 * (x5 + x3) + 4),
    (.m6, 799 * x5), (.m7, 4017 * x3),
    (.u6, 1609 * x5 + 2408 * x3 + 4), (.u7, 2408 * x5 - 1609 * x3 + 4) ]

/-- Stage 2 nodes of row mode before the odd recombination (R114). -/
def evenChecksRow (a0 a1 x2 x6 : Int) : List (Node × Int) :=
  [ (.c8, a0 + a1), (.c0, a0 - a1), (.s3, x2 + x6), (.t3, 1108 * (x2 + x6)),
    (.m2, 3784 * x6), (.m3, 1568 * x2),
    (.c2, 1108 * x2 - 2676 * x6), (.c3, 2676 * x2 + 1108 * x6) ]

/-- Stage 2 nodes of column mode before the odd recombination (R133). -/
def evenChecksCol (a0 a1 x2 x6 : Int) : List (Node × Int) :=
  [ (.c8, a0 + a1), (.c0, a0 - a1), (.s3, x2 + x6), (.t3, 1108 * (x2 + x6)),
    (.t3b, 1108 * (x2 + x6) + 4), (.m2, 3784 * x6), (.m3, 1568 * x2),
    (.u2, 1108 * x2 - 2676 * x6 + 4), (.u3, 2676 * x2 + 1108 * x6 + 4) ]

/-- What stages 2 to 4 are given: the prescaled pair, the even rotation, the two odd rotations. -/
structure ExactTerms where
  a0 : Int
  a1 : Int
  c2 : Int
  c3 : Int
  b4 : Int
  b5 : Int
  b6 : Int
  b7 : Int
deriving DecidableEq, Repr

/-- Those terms in row mode (R112 to R114). -/
def rowTerms (x0 x1 x2 x3 x4 x5 x6 x7 : Int) : ExactTerms where
  a0 := 2048 * x0 + 128
  a1 := 2048 * x4
  c2 := 1108 * x2 - 2676 * x6
  c3 := 2676 * x2 + 1108 * x6
  b4 := 2841 * x1 + 565 * x7
  b5 := 565 * x1 - 2841 * x7
  b6 := 1609 * x5 + 2408 * x3
  b7 := 2408 * x5 - 1609 * x3

/-- Those terms in column mode (R131 to R133): "floor((... + 4) / 8)". -/
def colTerms (x0 x1 x2 x3 x4 x5 x6 x7 : Int) : ExactTerms where
  a0 := 256 * x0 + 8192
  a1 := 256 * x4
  c2 := (1108 * x2 - 2676 * x6 + 4) / 8
  c3 := (2676 * x2 + 1108 * x6 + 4) / 8
  b4 := (2841 * x1 + 565 * x7 + 4) / 8
  b5 := (565 * x1 - 2841 * x7 + 4) / 8
  b6 := (1609 * x5 + 2408 * x3 + 4) / 8
  b7 := (2408 * x5 - 1609 * x3 + 4) / 8

/-- The terms of a row. -/
def exactTermsRow (x : Vector Int 8) : ExactTerms := rowTerms x[0] x[1] x[2] x[3] x[4] x[5] x[6] x[7]

/-- The terms of a column. -/
def exactTermsCol (x : Vector Int 8) : ExactTerms := colTerms x[0] x[1] x[2] x[3] x[4] x[5] x[6] x[7]

/-- The sum of all four odd terms that R2 scales into `d2`: `s4 = c4 + c5`. -/
def ExactTerms.s4 (t : ExactTerms) : Int := t.b4 - t.b6 + (t.b5 - t.b7)

/-- `s5 = c4 - c5`. -/
def ExactTerms.s5 (t : ExactTerms) : Int := t.b4 - t.b6 - (t.b5 - t.b7)

/-- `d2`. -/
def ExactTerms.d2 (t : ExactTerms) : Int := (181 * t.s4 + 128) / 256

/-- `d4`. -/
def ExactTerms.d4 (t : ExactTerms) : Int := (181 * t.s5 + 128) / 256

/-- The eight sums of stage 4, `e0` to `e7` (R116, R135). -/
def ExactTerms.sums (t : ExactTerms) : Vector Int 8 :=
  #v[ t.a0 + t.a1 + t.c3 + (t.b4 + t.b6), t.a0 - t.a1 + t.c2 + t.d2, t.a0 - t.a1 - t.c2 + t.d4,
      t.a0 + t.a1 - t.c3 + (t.b5 + t.b7), t.a0 + t.a1 - t.c3 - (t.b5 + t.b7), t.a0 - t.a1 - t.c2 - t.d4,
      t.a0 - t.a1 + t.c2 - t.d2, t.a0 + t.a1 + t.c3 - (t.b4 + t.b6) ]

/-- The nodes from the odd recombination to stage 4, the same in both modes. -/
def ExactTerms.lateChecks (t : ExactTerms) : List (Node × Int) :=
  [ (.c1, t.b4 + t.b6), (.c4, t.b4 - t.b6), (.c6, t.b5 + t.b7), (.c5, t.b5 - t.b7),
    (.d7, t.a0 + t.a1 + t.c3), (.d8, t.a0 + t.a1 - t.c3), (.d3, t.a0 - t.a1 + t.c2), (.d0, t.a0 - t.a1 - t.c2),
    (.s4, t.s4), (.q2, 181 * t.s4), (.g2, 181 * t.s4 + 128),
    (.s5, t.s5), (.q4, 181 * t.s5), (.g4, 181 * t.s5 + 128),
    (.e0, t.sums[0]), (.e1, t.sums[1]), (.e2, t.sums[2]), (.e3, t.sums[3]),
    (.e4, t.sums[4]), (.e5, t.sums[5]), (.e6, t.sums[6]), (.e7, t.sums[7]) ]

/-- The 45 checked nodes of row mode's general path with their exact values, in rule order (R117). -/
def rowGeneralChecks (x : Vector Int 8) : List (Node × Int) :=
  prescaleChecks 2048 128 x[0] x[4] ++ rotationChecksRow x[1] x[3] x[5] x[7]
    ++ evenChecksRow (exactTermsRow x).a0 (exactTermsRow x).a1 x[2] x[6] ++ (exactTermsRow x).lateChecks

/-- The node of the fast path (R111). -/
def fastChecks (x0 : Int) : List (Node × Int) := [(.f0, 8 * x0)]

/-- The exact result of the fast path (R111). -/
def fastExact (x0 : Int) : Vector Int 8 := Vector.replicate 8 (8 * x0)

/-- The checked nodes of the path a row takes (R110, R117). -/
def rowChecks (x : Vector Int 8) : List (Node × Int) := if AcZero x then fastChecks x[0] else rowGeneralChecks x

/-- The 48 checked nodes of column mode, in rule order (R138). -/
def colChecks (x : Vector Int 8) : List (Node × Int) :=
  prescaleChecks 256 8192 x[0] x[4] ++ rotationChecksCol x[1] x[3] x[5] x[7]
    ++ evenChecksCol (exactTermsCol x).a0 (exactTermsCol x).a1 x[2] x[6] ++ (exactTermsCol x).lateChecks

/-- The exact result of row mode's general path. -/
def rowGeneralExact (x : Vector Int 8) : Vector Int 8 := (exactTermsRow x).sums.map (· / 256)

/-- The exact result of row mode. -/
def rowExact (x : Vector Int 8) : Vector Int 8 := if AcZero x then fastExact x[0] else rowGeneralExact x

/-- The exact result of column mode. -/
def colExact (x : Vector Int 8) : Vector Int 8 := (exactTermsCol x).sums.map (· / 16384)

/-- The first node of a list whose value does not fit 32 bits signed (60 R166). -/
def firstOverflow : List (Node × Int) → Option Node
  | [] => none
  | (n, v) :: rest => if Fits v then firstOverflow rest else some n

/-! ### Blocks (41 R96) -/

/-- 64 integers by index. -/
abbrev Block := Fin 64 → Int

/-- Row `r` of a block. -/
def Block.row (B : Block) (r : Fin 8) : Vector Int 8 := Vector.ofFn fun j => B (rowIndex r j)

/-- Column `c` of a block. -/
def Block.col (B : Block) (c : Fin 8) : Vector Int 8 := Vector.ofFn fun j => B (colIndex c j)

/-- The row of an index (10 R21). -/
def rowOf (i : Fin 64) : Fin 8 := ⟨i.val / 8, by omega⟩

/-- The column of an index (10 R21). -/
def colOf (i : Fin 64) : Fin 8 := ⟨i.val % 8, by omega⟩

/-- `row_pass(B)` (R96). -/
def rowPass (B : Block) : Block := fun i => (rowExact (B.row (rowOf i)))[colOf i]

/-- `col_pass(B)` (R96). -/
def colPass (B : Block) : Block := fun i => (colExact (B.col (colOf i)))[rowOf i]

/-- `idct(B) = col_pass(row_pass(B))` (R96). -/
def idct (B : Block) : Block := colPass (rowPass B)

/-- No checked node of the row's path overflows (R117). -/
def RowLegal (x : Vector Int 8) : Prop := firstOverflow (rowChecks x) = none

/-- No checked node of the column overflows (R138). -/
def ColLegal (x : Vector Int 8) : Prop := firstOverflow (colChecks x) = none

/-- A legal block: none of the sixteen butterflies overflows (R96, 70 R198). -/
def LegalBlock (B : Block) : Prop := (∀ r, RowLegal (B.row r)) ∧ ∀ c, ColLegal ((rowPass B).col c)

/-! ### Sufficient conditions for legality (70 R199) -/

/-- Row `r` of the table `M` of R199 (S3). -/
def weightRow : Fin 8 → Vector Nat 8
  | 0 => #v[1048571, 3483, 802493, 2953, 1048571, 2953, 567516, 3483]
  | 1 => #v[3483, 2510, 2665, 2511, 3483, 2511, 2665, 2510]
  | 2 => #v[100312, 3483, 76771, 2953, 100312, 2953, 76771, 3483]
  | 3 => #v[2953, 2128, 2260, 2129, 2953, 2129, 2260, 2128]
  | 4 => #v[1048571, 3483, 802493, 2953, 1048571, 2953, 567516, 3483]
  | 5 => #v[2953, 2128, 2260, 2129, 2953, 2129, 2260, 2128]
  | 6 => #v[70939, 3483, 54291, 2953, 70939, 2953, 54291, 3483]
  | 7 => #v[3483, 2510, 2665, 2511, 3483, 2511, 2665, 2510]

/-- `M[i]` (S3). -/
def weightLimit (i : Fin 64) : Nat := (weightRow (rowOf i))[colOf i]

/-- The weighted sum of S3, `Σ_i |blk[i]| / M[i]`. -/
def weightedSum (B : Block) : ℚ := ∑ i, (|B i| : ℚ) / weightLimit i

/-- The pattern that shows the bound of S1 tight: rows 0, 1, 2, 4, 6 are `k`, rows 3, 5, 7 are `-k`. -/
def boxPattern (k : Int) : Block := fun i => if rowOf i = 3 ∨ rowOf i = 5 ∨ rowOf i = 7 then -k else k

/-- A block with one entry, the rest 0 (S2). -/
def singleBlock (p : Fin 64) (v : Int) : Block := fun i => if i = p then v else 0

/-! ### Entries of a state -/

/-- Entry `i` as a signed integer, none if it has held no value since reset. -/
def entry (s : State) (i : Fin 64) : Option Int := (Memory.read s.blk i.val).map BitVec.toInt

/-- The buffer holds the block: every entry is defined and has the block's value. -/
def Holds (s : State) (B : Block) : Prop := ∀ i, entry s i = some (B i)

/-- The eight places hold the eight values. -/
def HoldsEight (s : State) (addr : Fin 8 → Fin 64) (x : Vector Int 8) : Prop := ∀ j : Fin 8, entry s (addr j) = some x[j]

/-! ### The invariant of every run -/

/-- STATUS has one of its four shapes (10 R25). -/
def StatusShape (st : Status) : Prop :=
  st = Status.idle ∨ st = Status.running ∨ st = Status.completed ∨
    ∃ len : BitVec 8, len ≠ 64#8 ∧ st = Status.invalidLength len

/-- What holds of every state a run from reset reaches. -/
structure Inv (s : State) : Prop where
  /-- The buffer keeps its canonical form. -/
  canonical : Memory.wf s.blk = true
  /-- STATUS has one of the four shapes (10 R25). -/
  shape : StatusShape s.status
  /-- `seq` is 0 while no call runs (10 R23). -/
  idleSeq : s.status.busy = false → s.seq = 0#5
  /-- `seq` never holds 17 to 31 (10 R23). -/
  seqRange : s.seq.toNat ≤ 16
  /-- During a call every row the engine has done is defined (41 R93). -/
  rowsDefined : s.status.busy = true → ∀ i : Fin 64, (rowOf i).val < s.seq.toNat → (entry s i).isSome
  /-- While STATUS is DONE every entry is defined (60 R167). -/
  doneDefined : s.status.done = true → ∀ i : Fin 64, (entry s i).isSome
  /-- An ERROR response carries no data (30 R52). -/
  errorNoData : ∀ r, s.resp = some r → r.err = true → r.rdata = 0#32

/-! ### The state of a running call (41 R97) -/

/-- The block while the engine stands at `k`: rows below `k` hold the row pass, and from `k = 8` on columns below
`k - 8` hold the result. -/
def midCall (B : Block) (k : Nat) : Block := fun i =>
  if k ≤ 8 then (if (rowOf i).val < k then rowPass B i else B i)
  else if (colOf i).val < k - 8 then idct B i else rowPass B i

/-- The call that began with the block `B` is running. -/
structure CallRunning (B : Block) (s : State) : Prop where
  status : s.status = Status.running
  range : s.seq.toNat ≤ 16
  block : Holds s (midCall B s.seq.toNat)

/-- The call that began with the block `B` has completed, and the host has changed nothing since. -/
structure CallDone (B : Block) (s : State) : Prop where
  status : s.status = Status.completed
  seq : s.seq = 0#5
  block : Holds s (idct B)

/-! ### Moves -/

/-- The next move is the engine's: none is pending, or an engine turn is the first. -/
def EngineMoves (s : State) : Prop := s.inputs = [] ∨ ∃ rest, s.inputs = Input.engineTurn :: rest

/-- The next move is the host's, with this command word. -/
def HostMoves (w : BitVec 40) (s : State) : Prop := ∃ rest, s.inputs = Input.command w :: rest

/-- The first move is the platform's reset. -/
def ResetMoves (s : State) : Prop := ∃ rest, s.inputs = Input.reset :: rest

/-- The state once its first input is taken. -/
def afterInput (s : State) : State := { s with inputs := s.inputs.tail }

/-- The engine has an enabled step: a micro-operation to perform (41 R90). -/
def EngineEnabled (s : State) : Prop := ∃ i, engineAction s = .perform i s

/-- `n` steps, stopping at the first fault or refusal (the host's `Core.run` on this machine). -/
def runSteps : Nat → State → Host.Outcome State Fault Refusal
  | 0, s => .next s
  | n + 1, s =>
    match step s with
    | .next t => runSteps n t
    | .fault f => .fault f
    | .refused r => .refused r

/-- Two outcomes agree in block, sequencer and STATUS, or stop for the same reason. -/
def SameCall : Host.Outcome State Fault Refusal → Host.Outcome State Fault Refusal → Prop
  | .next t, .next t' => t.blk = t'.blk ∧ t.seq = t'.seq ∧ t.status = t'.status
  | .fault f, .fault f' => f = f'
  | .refused r, .refused r' => r = r'
  | _, _ => False

/-! ### Bus refusals (60 R162) -/

/-- The six causes. -/
inductive BusCause where
  | reservedAddr
  | writeOnly
  | readOnly
  | badCtrl
  | busyAccess
  | busyCommand
deriving DecidableEq, Repr

/-- The cause of a refusal by the command word's fields and BUSY, in the order of 60 R171. -/
def busCause (w : BitVec 40) (busy : Bool) : Option BusCause :=
  let addr := (w.extractLsb' 32 7).toNat
  let wr := w.getLsbD 39
  let data := w.extractLsb' 0 32
  if (0x42 ≤ addr ∧ addr ≤ 0x4F) ∨ 0x5D ≤ addr then some .reservedAddr
  else if addr = 0x40 ∧ wr = false then some .writeOnly
  else if (addr = 0x41 ∨ (0x50 ≤ addr ∧ addr ≤ 0x5C)) ∧ wr = true then some .readOnly
  else if addr = 0x40 ∧
      (data.extractLsb' 0 2 = 3#2 ∨ data.extractLsb' 2 6 ≠ 0#6 ∨ data.extractLsb' 16 16 ≠ 0#16) then some .badCtrl
  else if addr < 0x40 ∧ busy = true then some .busyAccess
  else if addr = 0x40 ∧ data.extractLsb' 0 2 ≠ 0#2 ∧ busy = true then some .busyCommand
  else none

end Sys2Proof
end

