-- ==== Sys2Proof/Certificates/Slice0/Obligations.lean ====
section
/-! DEFINITION. The statements about the model, in the order of OBLIGATIONS.json. Each docstring names the rule of
spec/ the statement comes from. -/

open Sys2Proof Sys2Proof.Machine

/-! ### Encoding -/

/-- Decoding the encoding of a well-formed instruction gives it back, with every operand (30 R51, R53, R54, R57). -/
def Obligations.DecodeOfEncodeIsIdentity : Prop :=
  ∀ i : Instr, i.wellFormed = true → decode (encode i) = .ok i

/-- The other direction: a command word that decodes gives a well-formed instruction, whose encoding is the word with
its ignored bits cleared (30 R54, R56). -/
def Obligations.EncodeOfDecodedCommandKeepsSignificantBits : Prop :=
  ∀ (w : BitVec 40) (i : Instr), decodeCommand w = .ok i →
    i.wellFormed = true ∧ encode i = .command (w &&& i.significant)

/-- The decoder by fields and the masks and matches of 30 R53 select the same operation, exactly one; an illegal word
matches none. -/
def Obligations.CommandDecodeAgreesWithMaskTable : Prop :=
  ∀ w : BitVec 40,
    (∀ i, decodeCommand w = .ok i →
      (commandTable.filter fun row => row.selects w).map OpcodeRow.mnemonic = [i.mnemonic]) ∧
    (∀ e, decodeCommand w = .error e → (commandTable.filter fun row => row.selects w) = [])

/-- The format U words (30 R57): 0 to 7 are ROW, 8 to 15 COL, 16 END; 17 to 31 are reserved: no state of the invariant
holds one in its sequencer, and a machine whose sequencer holds one refuses on the engine's turn. -/
def Obligations.MicroOpWordsDecode : Prop :=
  (∀ r : Fin 8, decodeMicroOp (0#2 ++ BitVec.ofFin (w := 3) r) = .ok (.row r)) ∧
  (∀ c : Fin 8, decodeMicroOp (1#2 ++ BitVec.ofFin (w := 3) c) = .ok (.col c)) ∧
  decodeMicroOp 0b10000#5 = .ok .endCall ∧
  (∀ u : BitVec 5, 17 ≤ u.toNat → decodeMicroOp u = .error .reservedMicroOp ∧
    (∀ s : State, Sys2Proof.Inv s → s.seq ≠ u) ∧
    ∀ s, EngineMoves s → s.status.busy = true → s.seq = u → step s = .refused (.reservedMicroOp u))

/-- Command words of 95 sections 2 and 6, written out, decode to the instructions they stand for. -/
def Obligations.WordsOfTheSpecDecode : Prop :=
  decodeCommand 0x87000007FF#40 = .ok (.wrBlk 7 2047#32) ∧
  decodeCommand 0x05DEADBEEF#40 = .ok (.rdBlk 5) ∧
  decodeCommand 0xC00000FF00#40 = .ok .ctrlNop ∧
  decodeCommand 0xC000004001#40 = .ok (.start 64#8) ∧
  decodeCommand 0xC000000002#40 = .ok .clear ∧
  decodeCommand 0x4100000000#40 = .ok .rdStatus ∧
  decodeCommand 0x5C00000000#40 = .ok (.rdRom 12) ∧
  decodeCommand 0x5D00000000#40 = .error .reservedAddr ∧
  decodeCommand 0xC000014001#40 = .error .badCtrl ∧
  decodeMicroOp 0b00111#5 = .ok (.row 7) ∧
  decodeMicroOp 0b01111#5 = .ok (.col 7)

/-- The words each line of the assembler notation stands for (30 R60) decode, in order, to the operations it names, for
every operand; `RAW` is its word, and `RESET` no word but the platform's reset. How often WAIT polls is an argument
(log entry 17). -/
def Obligations.AssemblerWordsDecode : Prop :=
  (∀ (i : Fin 64) (v : Int), (AsmLine.wr i v).words.map decodeCommand = [.ok (.wrBlk i (Word.ofInt v))]) ∧
  (∀ i : Fin 64, (AsmLine.rd i).words.map decodeCommand = [.ok (.rdBlk i)]) ∧
  (AsmLine.nop.words.map decodeCommand = [.ok .ctrlNop]) ∧
  (∀ len : BitVec 8, (AsmLine.start len).words.map decodeCommand = [.ok (.start len)]) ∧
  (AsmLine.clear.words.map decodeCommand = [.ok .clear]) ∧
  (AsmLine.rdStatus.words.map decodeCommand = [.ok .rdStatus]) ∧
  (∀ k : Fin 13, (AsmLine.rdRom k).words.map decodeCommand = [.ok (.rdRom ⟨k.val, by omega⟩)]) ∧
  (∀ w : BitVec 40, (AsmLine.raw w).words = [w]) ∧
  (∀ v : Vector Int 64, (AsmLine.load v).words.map decodeCommand
    = (List.finRange 64).map fun i => .ok (.wrBlk i (Word.ofInt v[i]))) ∧
  (∀ polls, (AsmLine.wait polls).words.map decodeCommand = List.replicate polls (.ok .rdStatus)) ∧
  (∀ polls, (AsmLine.idct polls).words.map decodeCommand
    = .ok (.start 64#8) :: List.replicate polls (.ok .rdStatus)) ∧
  (AsmLine.dump.words.map decodeCommand = (List.finRange 64).map fun i => .ok (.rdBlk i)) ∧
  AsmLine.reset.words = [] ∧ AsmLine.reset.moves = [.reset]

/-- The n-th number of the argument is how many turns of the engine stand before the n-th move of a program, and where
there is no such number none stands (the spec leaves the placing free, 93 U13; an argument, log entry 18); leaving the
turns out gives the moves of the program's lines in order; with none put in, the moves alone. -/
def Obligations.AssembledProgramKeepsItsMoves : Prop :=
  ∀ program : List AsmLine,
    (∀ turns, assemble turns program = (program.flatMap AsmLine.moves).zipIdx.flatMap fun p =>
      List.replicate (turns.getD p.2 0) Input.engineTurn ++ [p.1]) ∧
    (∀ turns, (assemble turns program).filter (fun m => m != .engineTurn) = program.flatMap AsmLine.moves) ∧
    assemble [] program = program.flatMap AsmLine.moves

/-! ### What a step runs -/

/-- A step whose next move is a command word that decodes is the decoded instruction's meaning, in the state with the
command taken (00 R14, 40 R72). -/
def Obligations.StepPerformsTheDecodedCommand : Prop :=
  ∀ (w : BitVec 40) (i : Instr) (s : State), HostMoves w s → decodeCommand w = .ok i →
    step s = exec i (afterInput s)

/-- A step that is the engine's, during a call, is the meaning of the micro-operation whose word equals `seq`, in the
state with the turn taken (41 R90). -/
def Obligations.StepPerformsTheSelectedMicroOp : Prop :=
  ∀ (i : Instr) (s : State), EngineMoves s → s.status.busy = true → decodeMicroOp s.seq = .ok i →
    step s = exec i (afterInput s)

/-- The word of an opcode-table row placed by `withFetchWord` is what the very next step runs, in the state the word was
placed in; for a micro-operation that state has a call running and `seq` at the word (model's choice, log entry 7). -/
def Obligations.PlacedWordRunsNext : Prop :=
  ∀ (s : State) (nbits w : Nat) (i : Instr), decodeTableWord nbits w = some i →
    (8 < nbits → step (s.withFetchWord nbits w) = exec i s) ∧
    (nbits ≤ 8 → step (s.withFetchWord nbits w) =
      exec i { s with seq := BitVec.ofNat 5 w, status := Status.running })

/-- In the states of the invariant the engine has an enabled step exactly while a call runs (41 R90); while none runs
it has none in any state, and its turn touches nothing, after a reset and after END as well. That a turn without an
enabled step is a step that changes nothing is the model's choice, log entry 5. -/
def Obligations.EngineIdlesWhileNotBusy : Prop :=
  (∀ s : State, Sys2Proof.Inv s → (EngineEnabled s ↔ s.status.busy = true)) ∧
  (∀ s : State, s.status.busy = false → ¬ EngineEnabled s) ∧
  (∀ s : State, EngineMoves s → s.status.busy = false → step s = .next (afterInput s)) ∧
  (∀ s t : State, ResetMoves s → step s = .next t → EngineMoves t → step t = .next (afterInput t)) ∧
  (∀ s t : State, exec .endCall s = .next t → EngineMoves t → step t = .next (afterInput t))

/-- Reset (70 R190), in any state: `seq` and STATUS 0, every entry without a value, the outputs 0, and afterwards the
engine has no enabled step. -/
def Obligations.ResetClearsTheEngine : Prop :=
  ∀ s : State, ResetMoves s → ∃ t, step s = .next t ∧ t.seq = 0#5 ∧ t.status.word = 0#32 ∧
    t.status.busy = false ∧ t.status.done = false ∧ t.status.err = false ∧ t.status.ecode = 0#4 ∧
    t.status.elen = 0#8 ∧ (∀ n, Memory.read t.blk n = none) ∧
    t.busyOut = false ∧ t.doneOut = false ∧ t.errOut = false ∧ ¬ EngineEnabled t

/-- The state after reset (10 R31): the values above, and a read of any entry, by the host or by a ROW, is the model
fault UninitRead. -/
def Obligations.StateAfterReset : Prop :=
  State.reset.seq = 0#5 ∧ State.reset.status.word = 0#32 ∧
  State.reset.busyOut = false ∧ State.reset.doneOut = false ∧ State.reset.errOut = false ∧
  (∀ i : Fin 64, exec (.rdBlk i) State.reset = .fault (.uninitRead i)) ∧
  (∀ r : Fin 8, exec (.row r) State.reset = .fault (.uninitRead (rowIndex r 0)))

/-! ### Host commands -/

/-- `WR_BLK` (40 R70): its words; refused with no other effect while BUSY; else the entry holds the word and nothing
else changes but the response. -/
def Obligations.WrBlkWritesOneEntry : Prop :=
  (∀ w : BitVec 40, w &&& 0xC000000000#40 = 0x8000000000#40 → ∃ i v, decodeCommand w = .ok (.wrBlk i v) ∧
    i.val = (w.extractLsb' 32 6).toNat ∧ v = w.extractLsb' 0 32) ∧
  ∀ (i : Fin 64) (v : Word) (s : State),
    (s.status.busy = true → exec (.wrBlk i v) s = .next { s with resp := some Response.error }) ∧
    (s.status.busy = false → ∃ t, exec (.wrBlk i v) s = .next t ∧
      entry t i = some v.toInt ∧ Memory.read t.blk i.val = some v ∧
      (∀ n, n ≠ i.val → Memory.read t.blk n = Memory.read s.blk n) ∧
      t.seq = s.seq ∧ t.status = s.status ∧ t.inputs = s.inputs ∧ t.resp = some (Response.okay 0#32))

/-- `RD_BLK` (40 R71): its words; refused while BUSY; UninitRead for an entry without a value; else the stored word,
and nothing changes but the response. -/
def Obligations.RdBlkReturnsTheEntry : Prop :=
  (∀ w : BitVec 40, w &&& 0xC000000000#40 = 0x0000000000#40 → ∃ i, decodeCommand w = .ok (.rdBlk i) ∧
    i.val = (w.extractLsb' 32 6).toNat) ∧
  ∀ (i : Fin 64) (s : State),
    (s.status.busy = true → exec (.rdBlk i) s = .next { s with resp := some Response.error }) ∧
    (s.status.busy = false → entry s i = none → exec (.rdBlk i) s = .fault (.uninitRead i)) ∧
    (s.status.busy = false → ∀ v : Int, entry s i = some v →
      exec (.rdBlk i) s = .next { s with resp := some (Response.okay (Word.ofInt v)) })

/-- `CTRL_NOP` (40 R73): its words; OKAY in every state; nothing else changes. -/
def Obligations.CtrlNopAnswersOkay : Prop :=
  (∀ w : BitVec 40, w &&& 0xFFFFFF00FF#40 = 0xC000000000#40 → decodeCommand w = .ok .ctrlNop) ∧
  ∀ s : State, exec .ctrlNop s = .next { s with resp := some (Response.okay 0#32) }

/-- `START len` (40 R74): its words; refused during a call whatever its length; a length other than 64 is recorded in
STATUS and answered OKAY, block and sequencer unchanged; 64 begins a call. -/
def Obligations.StartBeginsACallOrRecordsTheLength : Prop :=
  (∀ w : BitVec 40, w &&& 0xFFFFFF00FF#40 = 0xC000000001#40 →
    decodeCommand w = .ok (.start (w.extractLsb' 8 8))) ∧
  ∀ (len : BitVec 8) (s : State),
    (s.status.busy = true → exec (.start len) s = .next { s with resp := some Response.error }) ∧
    (s.status.busy = false → len ≠ 64#8 → ∃ t, exec (.start len) s = .next t ∧
      t.status = { busy := false, done := false, err := true, ecode := 1#4, elen := len } ∧
      t.status.word.toNat = 0x14 + 256 * len.toNat ∧
      t.blk = s.blk ∧ t.seq = s.seq ∧ t.inputs = s.inputs ∧ t.resp = some (Response.okay 0#32)) ∧
    (s.status.busy = false → len = 64#8 → ∃ t, exec (.start len) s = .next t ∧
      t.status = { busy := true, done := false, err := false, ecode := 0#4, elen := 0#8 } ∧
      t.status.word = 1#32 ∧ t.seq = 0#5 ∧
      t.blk = s.blk ∧ t.inputs = s.inputs ∧ t.resp = some (Response.okay 0#32))

/-- `CLEAR` (40 R75): its words; refused during a call; else STATUS becomes 0, block and sequencer unchanged. -/
def Obligations.ClearAcknowledges : Prop :=
  (∀ w : BitVec 40, w &&& 0xFFFFFF00FF#40 = 0xC000000002#40 → decodeCommand w = .ok .clear) ∧
  ∀ s : State,
    (s.status.busy = true → exec .clear s = .next { s with resp := some Response.error }) ∧
    (s.status.busy = false → ∃ t, exec .clear s = .next t ∧
      t.status = { busy := false, done := false, err := false, ecode := 0#4, elen := 0#8 } ∧ t.status.word = 0#32 ∧
      t.blk = s.blk ∧ t.seq = s.seq ∧ t.inputs = s.inputs ∧ t.resp = some (Response.okay 0#32))

/-- `RD_STATUS` (40 R76): its words; the word with each field at its place, in every state, nothing else changed; in
every state of the invariant one of the four words of 10 R25. -/
def Obligations.RdStatusReturnsTheFields : Prop :=
  (∀ w : BitVec 40, w &&& 0xFF00000000#40 = 0x4100000000#40 → decodeCommand w = .ok .rdStatus) ∧
  ∀ s : State, ∃ v : Word, exec .rdStatus s = .next { s with resp := some (Response.okay v) } ∧
    v.getLsbD 0 = s.status.busy ∧ v.getLsbD 1 = s.status.done ∧ v.getLsbD 2 = s.status.err ∧ v.getLsbD 3 = false ∧
    v.extractLsb' 4 4 = s.status.ecode ∧ v.extractLsb' 8 8 = s.status.elen ∧ v.extractLsb' 16 16 = 0#16 ∧
    (Inv s → v = 0#32 ∨ v = 1#32 ∨ v = 2#32 ∨ ∃ len : BitVec 8, len ≠ 64#8 ∧ v.toNat = 0x14 + 256 * len.toNat)

/-- `RD_ROM k` (40 R77): its words; the constant in every state, BUSY included, nothing else changed; the indices 13
to 15 are refused. The constants' values are the spec's general knowledge, log entry 16. -/
def Obligations.RdRomReturnsTheConstant : Prop :=
  (∀ w : BitVec 40, w &&& 0xF000000000#40 = 0x5000000000#40 → (w.extractLsb' 32 4).toNat ≤ 12 →
    ∃ k, decodeCommand w = .ok (.rdRom k) ∧ k.val = (w.extractLsb' 32 4).toNat) ∧
  (∀ (k : Fin 13) (s : State), exec (.rdRom ⟨k.val, by omega⟩) s =
    .next { s with resp := some (Response.okay (BitVec.ofNat 32 (rom k))) }) ∧
  ∀ (k : Fin 16) (s : State), 13 ≤ k.val → exec (.rdRom k) s = .next { s with resp := some Response.error }

/-- The ROM's thirteen values and what relates them (44 R150, R152): the sums and differences are exact, every entry is
below 2^12. The values are the spec's general knowledge, log entry 16. -/
def Obligations.RomTableIsConsistent : Prop :=
  (List.finRange 13).map rom = [2841, 2676, 2408, 1609, 1108, 565, 3406, 2276, 4017, 799, 3784, 1568, 181] ∧
  rom 6 = rom 0 + rom 5 ∧ rom 7 + rom 5 = rom 0 ∧ rom 8 = rom 2 + rom 3 ∧ rom 9 + rom 3 = rom 2 ∧
  rom 10 = rom 1 + rom 4 ∧ rom 11 + rom 4 = rom 1 ∧ ∀ k, rom k < 4096

/-- Bus refusals (60 R162): a command with one of the six causes is answered ERROR, RDATA 0, and changes nothing else; a
command without one is never answered ERROR. -/
def Obligations.BusRefusalsAreTheSixCauses : Prop :=
  ∀ (w : BitVec 40) (s : State), HostMoves w s →
    (∀ cause, busCause w s.status.busy = some cause →
      step s = .next { afterInput s with resp := some { err := true, rdata := 0#32 } }) ∧
    (busCause w s.status.busy = none → ∀ t, step s = .next t → ∃ v, t.resp = some { err := false, rdata := v })

/-- Responses (30 R52): every host command that is not a model fault gets one; its 33-bit word is ERR above RDATA;
RDATA is 0 on every write and on every ERROR; an ERROR changed nothing but the response. -/
def Obligations.ResponsesCarryDataOnlyOnOkayReads : Prop :=
  ∀ (w : BitVec 40) (s t : State), HostMoves w s → step s = .next t →
    ∃ r, t.resp = some r ∧ r.word.getLsbD 32 = r.err ∧ r.word.extractLsb' 0 32 = r.rdata ∧
      (r.err = true → r.rdata = 0#32 ∧ t = { afterInput s with resp := some r }) ∧
      (w.getLsbD 39 = true → r.rdata = 0#32)

/-- While a call runs every host command completes, and none changes block, sequencer or STATUS (40 R72, 10 R22). -/
def Obligations.HostNeverDisturbsARunningCall : Prop :=
  ∀ (w : BitVec 40) (s : State), HostMoves w s → s.status.busy = true →
    ∃ t, step s = .next t ∧ t.blk = s.blk ∧ t.seq = s.seq ∧ t.status = s.status ∧ t.inputs = s.inputs.tail

/-! ### Micro-operations -/

/-- `ROW r` (41 R92): on a row whose eight entries are defined and whose nodes all fit, the row holds the row
transform, the sequencer advances, and nothing else changes. The equations are the spec's general knowledge, log entry
16. -/
def Obligations.RowTransformsItsRow : Prop :=
  ∀ (r : Fin 8) (s : State) (x : Vector Int 8), HoldsEight s (rowIndex r) x → RowLegal x →
    ∃ t, exec (.row r) s = .next t ∧ HoldsEight t (rowIndex r) (rowExact x) ∧
      (∀ n, (∀ j, n ≠ (rowIndex r j).val) → Memory.read t.blk n = Memory.read s.blk n) ∧
      t.seq = s.seq + 1#5 ∧ t.status = s.status ∧ t.resp = s.resp ∧ t.inputs = s.inputs

/-- `COL c` (41 R93): the same for a column, without a fast path. -/
def Obligations.ColTransformsItsColumn : Prop :=
  ∀ (c : Fin 8) (s : State) (x : Vector Int 8), HoldsEight s (colIndex c) x → ColLegal x →
    ∃ t, exec (.col c) s = .next t ∧ HoldsEight t (colIndex c) (colExact x) ∧
      (∀ n, (∀ j, n ≠ (colIndex c j).val) → Memory.read t.blk n = Memory.read s.blk n) ∧
      t.seq = s.seq + 1#5 ∧ t.status = s.status ∧ t.resp = s.resp ∧ t.inputs = s.inputs

/-- `END` (41 R94): its word; performed when `seq = 16` during a call; STATUS becomes the word 2 and `seq` 0; the block
is not touched; afterwards the engine has no step. -/
def Obligations.EndCompletesTheCall : Prop :=
  decodeMicroOp 0b10000#5 = .ok .endCall ∧
  (∀ s : State, EngineMoves s → s.status.busy = true → s.seq = 16#5 → step s = exec .endCall (afterInput s)) ∧
  ∀ s : State, ∃ t, exec .endCall s = .next t ∧
    t.status = { busy := false, done := true, err := false, ecode := 0#4, elen := 0#8 } ∧ t.status.word = 2#32 ∧
    t.seq = 0#5 ∧ t.blk = s.blk ∧ t.resp = s.resp ∧ t.inputs = s.inputs ∧ ¬ EngineEnabled t

/-- The order of model faults inside a micro-operation (60 R168): the lowest position without a value first, and, when
all eight are defined, the first node in rule order that does not fit. The clause on UninitRead of a COL is the model's
choice (log entries 2 and 10), for states no run reaches: by 41 R93 and 60 R167 a COL of a run cannot raise it. -/
def Obligations.MicroOpFaultsComeInOrder : Prop :=
  ∀ (k : Fin 8) (s : State),
    (∀ j : Fin 8, entry s (rowIndex k j) = none → (∀ l < j, entry s (rowIndex k l) ≠ none) →
      exec (.row k) s = .fault (.uninitRead (rowIndex k j))) ∧
    (∀ j : Fin 8, entry s (colIndex k j) = none → (∀ l < j, entry s (colIndex k l) ≠ none) →
      exec (.col k) s = .fault (.uninitRead (colIndex k j))) ∧
    (∀ x n, HoldsEight s (rowIndex k) x → firstOverflow (rowChecks x) = some n →
      exec (.row k) s = .fault (.overflow n)) ∧
    (∀ x n, HoldsEight s (colIndex k) x → firstOverflow (colChecks x) = some n →
      exec (.col k) s = .fault (.overflow n))

/-! ### The butterfly -/

/-- The datapath's primitives (00 R10 to R13): a node is its exact value if that fits 32 bits signed and else the
fault that names it; a left shift is multiplication, for every sign; a right shift is floor division, which with half
the divisor added before it rounds to nearest, ties toward plus infinity; a product is exact. -/
def Obligations.DatapathPrimitivesAreExact : Prop :=
  (∀ (n : Node) (v : Int), -2147483648 ≤ v → v ≤ 2147483647 → chk n v = .ok v) ∧
  (∀ (n : Node) (v : Int), v < -2147483648 ∨ 2147483647 < v → chk n v = .error (.overflow n)) ∧
  (∀ (n : Node) (v : Int), shl n v 3 = chk n (8 * v) ∧ shl n v 8 = chk n (256 * v) ∧ shl n v 11 = chk n (2048 * v)) ∧
  (∀ (n : Node) (k : Fin 13) (v : Int), mulRom n k v = chk n ((rom k : Int) * v)) ∧
  ∀ k ∈ [3, 8, 14], ∀ v : Int,
    (2 ^ k * sar v k ≤ v ∧ v < 2 ^ k * sar v k + 2 ^ k) ∧
    (2 * v - 2 ^ k < 2 * (2 ^ k * sar (v + 2 ^ (k - 1)) k) ∧ 2 * (2 ^ k * sar (v + 2 ^ (k - 1)) k) ≤ 2 * v + 2 ^ k)

/-- Row mode computes, node by node, the exact integer values: it answers the first node that does not fit, or the
exact result (42 R110 to R117). The equations are the spec's general knowledge, log entry 16. -/
def Obligations.RowButterflyIsExact : Prop :=
  ∀ x : Vector Int 8, bflyRow x =
    match firstOverflow (rowChecks x) with
    | none => .ok (rowExact x)
    | some n => .error (.overflow n)

/-- Column mode likewise (43 R130 to R138). -/
def Obligations.ColButterflyIsExact : Prop :=
  ∀ x : Vector Int 8, bflyCol x =
    match firstOverflow (colChecks x) with
    | none => .ok (colExact x)
    | some n => .error (.overflow n)

/-- The fast path (42 R110, R111): eight times the DC entry at all eight places where it fits, `Overflow(f0)` where it
does not. -/
def Obligations.FastPathShiftsTheDcEntry : Prop :=
  ∀ (x : Vector Int 8) (k : Int), AcZero x → x[0] = k →
    (-268435456 ≤ k → k ≤ 268435455 → bflyRow x = .ok (Vector.replicate 8 (8 * k))) ∧
    (k < -268435456 ∨ 268435455 < k → bflyRow x = .error (.overflow .f0))

/-- Fast-path equivalence (42 R118): on a row whose AC entries are zero the general path gives the fast path's value
wherever it is defined, and it is defined for fewer DC entries. -/
def Obligations.GeneralPathAgreesWithFastPath : Prop :=
  ∀ (x : Vector Int 8) (k : Int), AcZero x → x[0] = k →
    (-1048576 ≤ k → k ≤ 1048575 → rowGeneral x = .ok (Vector.replicate 8 (8 * k)) ∧ bflyRow x = rowGeneral x) ∧
    (k < -1048576 ∨ 1048575 < k → rowGeneral x = .error (.overflow .p0))

/-- A DC-only column (43 R131, R136): all eight outputs are `floor((in[0] + 32) / 64)`, with the exact range in which it
is defined. -/
def Obligations.DcOnlyColumnRounds : Prop :=
  ∀ (x : Vector Int 8) (k : Int), AcZero x → x[0] = k →
    (-8388608 ≤ k → k ≤ 8388575 → bflyCol x = .ok (Vector.replicate 8 ((k + 32) / 64))) ∧
    (8388575 < k → k ≤ 8388607 → bflyCol x = .error (.overflow .a0)) ∧
    (k < -8388608 ∨ 8388607 < k → bflyCol x = .error (.overflow .p0))

/-! ### The machine -/

/-- The invariant holds after reset. -/
def Obligations.InvariantHoldsAtReset : Prop := Inv State.reset

/-- Every step keeps the invariant: the buffer's canonical form, the four shapes of STATUS (10 R25), the range of `seq`
and its 0 while no call runs (10 R23), the rows a call has done are defined, all entries are while STATUS is DONE
(60 R167), an ERROR carries no data (30 R52). -/
def Obligations.EveryStepKeepsTheInvariant : Prop :=
  ∀ s t : State, Inv s → step s = .next t → Inv t

/-- A column never reads an entry without a value (41 R93, 60 R167). -/
def Obligations.ColumnsReadOnlyDefinedEntries : Prop :=
  ∀ s : State, Inv s → EngineMoves s → s.status.busy = true → 8 ≤ s.seq.toNat →
    ∀ i, step s ≠ .fault (.uninitRead i)

/-- An entry that holds a value holds one for ever, until reset (60 R167). -/
def Obligations.DefinedEntriesStayDefined : Prop :=
  ∀ (s t : State) (i : Fin 64), step s = .next t → ¬ ResetMoves s → (entry s i).isSome = true →
    (entry t i).isSome = true

/-- No state of the invariant is refused: the reserved micro-operation words are never reached (10 R23, 30 R57). -/
def Obligations.NoReachableStateIsRefused : Prop :=
  ∀ s : State, Inv s → ∀ r, step s ≠ .refused r

/-- Control transfer (41 R100): reset, an accepted `START 64` and END set `seq` to 0, ROW and COL add one, nothing else
changes it. -/
def Obligations.SeqChangesOnlyAsListed : Prop :=
  ∀ s t : State, step s = .next t →
    (ResetMoves s → t.seq = 0#5) ∧
    (∀ w, HostMoves w s → t.seq =
      if s.status.busy = false ∧ decodeCommand w = .ok (.start 64#8) then 0#5 else s.seq) ∧
    (EngineMoves s → s.status.busy = false → t.seq = s.seq) ∧
    (EngineMoves s → s.status.busy = true → s.seq.toNat < 16 → t.seq = s.seq + 1#5) ∧
    (EngineMoves s → s.status.busy = true → s.seq.toNat = 16 → t.seq = 0#5)

/-- STATUS changes only by reset, by START or CLEAR outside a call, and by END (10 R24). -/
def Obligations.StatusChangesOnlyByItsWriters : Prop :=
  ∀ s t : State, step s = .next t → t.status ≠ s.status →
    ResetMoves s ∨
    (s.status.busy = false ∧ ∃ w i, HostMoves w s ∧ decodeCommand w = .ok i ∧ (i = .clear ∨ ∃ len, i = .start len)) ∨
    (s.status.busy = true ∧ EngineMoves s ∧ s.seq = 16#5)

/-- Ownership (10 R22): outside a call only WR_BLK of entry `n` and reset change entry `n`; during a call only the
engine's ROW and COL and reset do. -/
def Obligations.EntriesChangeOnlyByTheirOwner : Prop :=
  ∀ (s t : State) (n : Nat), step s = .next t → Memory.read t.blk n ≠ Memory.read s.blk n →
    ResetMoves s ∨
    (s.status.busy = false ∧ ∃ w i v, HostMoves w s ∧ decodeCommand w = .ok (.wrBlk i v) ∧ i.val = n) ∨
    (s.status.busy = true ∧ EngineMoves s ∧
      ∃ k j : Fin 8, (s.seq.toNat = k.val ∧ n = 8 * k.val + j.val) ∨ (s.seq.toNat = 8 + k.val ∧ n = 8 * j.val + k.val))

/-- During a call of a legal block, whatever the host does, the machine goes on: the block is the mixture of inputs,
row results and final results that `seq` says, the engine's turn advances it, and END leaves `idct B` (41 R91, R97). -/
def Obligations.RunningCallAdvancesToItsResult : Prop :=
  ∀ (B : Block) (s : State), LegalBlock B → CallRunning B s → ¬ ResetMoves s →
    ∃ t, step s = .next t ∧
      (EngineMoves s → s.seq.toNat < 16 → CallRunning B t ∧ t.seq = s.seq + 1#5) ∧
      (EngineMoves s → s.seq.toNat = 16 → CallDone B t) ∧
      (∀ w, HostMoves w s → CallRunning B t ∧ t.seq = s.seq)

/-- What a call does (41 R97): from a state that holds a legal block and in which no call runs, `START 64` and then 17
engine steps leave STATUS 2, `seq` 0 and `idct B`; before the last of them STATUS is BUSY. Nothing but the START is
pending, so the engine moves by log entry 4; CallDependsOnlyOnTheBlock carries the result to the other lists. -/
def Obligations.CallComputesIdct : Prop :=
  ∀ (B : Block) (s : State), LegalBlock B → Holds s B → s.status.busy = false →
    s.inputs = [.command 0xC000004001#40] →
    (∀ n, n < 17 → ∃ u, runSteps (n + 1) s = .next u ∧ u.status = Status.running) ∧
    ∃ t, runSteps 18 s = .next t ∧ t.status.word = 2#32 ∧ t.seq = 0#5 ∧ Holds t (idct B)

/-- If the block is not legal, some ROW or COL raises Overflow and the call has no result (41 R97, 60 R166). Nothing but
the START is pending, so the engine moves by log entry 4; CallDependsOnlyOnTheBlock carries it to the other lists. -/
def Obligations.IllegalBlockEndsInOverflow : Prop :=
  ∀ (B : Block) (s : State), ¬ LegalBlock B → Holds s B → s.status.busy = false →
    s.inputs = [.command 0xC000004001#40] → ∃ n, runSteps 18 s = .fault (.overflow n)

/-- A call of a block with an entry that was never written does not complete (70 R192, 60 R167), whatever commands and
engine turns are pending, as long as no reset is among them: every state it reaches is still BUSY, and it ends in a model
fault, at the latest once the engine, moving by log entry 4 when nothing is pending, has had 17 turns. -/
def Obligations.UnwrittenEntryStopsTheCall : Prop :=
  ∀ (s : State) (i : Fin 64) (l : List Input), entry s i = none → s.status.busy = false →
    s.inputs = .command 0xC000004001#40 :: l → Input.reset ∉ l →
    (∀ n t, runSteps (n + 1) s = .next t → t.status = Status.running) ∧ ∃ f, runSteps (l.length + 18) s = .fault f

/-- The outcome of a call depends on the 64 entries alone (00 R6): not on STATUS, `seq` or the response before it, nor on
how many host commands come between its engine steps and which. Two states with the same block begin a call, one with
any list of commands and engine turns pending after it, the other with none, so that the engine moves by log entry 4:
after as many engine turns each (the list has at most 16, so the call has not completed within it), and after any number
of further steps, block, `seq` and STATUS agree, and where one has stopped in a fault the other has in the same. -/
def Obligations.CallDependsOnlyOnTheBlock : Prop :=
  ∀ (s s' : State) (l : List Input) (k : Nat), s.blk = s'.blk → s.status.busy = false → s'.status.busy = false →
    s.inputs = .command 0xC000004001#40 :: l → s'.inputs = [.command 0xC000004001#40] →
    Input.reset ∉ l → l.count .engineTurn ≤ 16 →
    SameCall (runSteps (l.length + 1 + k) s) (runSteps (l.count .engineTurn + 1 + k) s')

/-- A call takes 17 engine steps and no more (41 R90): with nothing pending, after the steps that remain it has completed
or stopped in a model fault. That the engine moves when nothing is pending is log entry 4, the model's form of R90's weak
fairness. -/
def Obligations.CallTakesSeventeenEngineSteps : Prop :=
  ∀ s : State, Inv s → s.status.busy = true → s.inputs = [] →
    (∃ t, runSteps (17 - s.seq.toNat) s = .next t ∧ t.status = Status.completed ∧ t.seq = 0#5) ∨
    ∃ f, runSteps (17 - s.seq.toNat) s = .fault f

/-- Order inside a pass does not matter (41 R98): two rows, or two columns, in either order leave the same state. -/
def Obligations.ButterfliesOfOnePassCommute : Prop :=
  ∀ (k l : Fin 8) (s t u : State), k ≠ l → Memory.wf s.blk = true →
    (exec (.row k) s = .next t → exec (.row l) t = .next u →
      ∃ v, exec (.row l) s = .next v ∧ exec (.row k) v = .next u) ∧
    (exec (.col k) s = .next t → exec (.col l) t = .next u →
      ∃ v, exec (.col l) s = .next v ∧ exec (.col k) v = .next u)

/-- Instances share nothing (20 R45, 60 R174): a step of instance `k` gives it what its own step gives (its next state,
or its own fault or refusal, in which it stays), leaves every other as it was, and the steps of two instances in either
order give the same. -/
def Obligations.FleetInstancesAreIndependent : Prop :=
  (∀ s t, step s = .next t → (Engine.running s).step = .running t) ∧
  (∀ s f, step s = .fault f → (Engine.running s).step = .faulted f) ∧
  (∀ s r, step s = .refused r → (Engine.running s).step = .refused r) ∧
  ∀ (engines : List Engine) (k l : Nat),
    (fleetStep engines k)[k]? = engines[k]?.map Engine.step ∧
    (l ≠ k → (fleetStep engines k)[l]? = engines[l]?) ∧
    (fleetStep engines k).length = engines.length ∧
    fleetStep (fleetStep engines k) l = fleetStep (fleetStep engines l) k

/-- Any interleaving of the instances' steps gives each the result it would have alone (60 R174), a fault of another
included. -/
def Obligations.EachInstanceRunsAsItWouldAlone : Prop :=
  ∀ (schedule : List Nat) (engines : List Engine) (l : Nat),
    (fleetRun schedule engines)[l]? = engines[l]?.map (Engine.run (schedule.count l))

/-! ### Legal blocks -/

/-- The golden test (43 R136, 70 R199): a DC-only block is legal exactly for `-1048576 ≤ k ≤ 1048571`, and then every
sample of the result is `floor((k + 4) / 8)`. -/
def Obligations.DcOnlyBlockIsUniform : Prop :=
  ∀ (k : Int) (B : Block), B = (fun i => if i = 0 then k else 0) →
    (LegalBlock B ↔ -1048576 ≤ k ∧ k ≤ 1048571) ∧
    (-1048576 ≤ k → k ≤ 1048571 → ∀ i, idct B i = (k + 4) / 8)

/-- The box (70 R199 S1): a block with every entry of magnitude at most 151 is legal, every result of its row pass has
magnitude at most 9027 and every final result at most 1055. -/
def Obligations.BoxOf151IsLegal : Prop :=
  ∀ B : Block, (∀ i, -151 ≤ B i ∧ B i ≤ 151) →
    LegalBlock B ∧ ∀ i, -9027 ≤ rowPass B i ∧ rowPass B i ≤ 9027 ∧ -1055 ≤ idct B i ∧ idct B i ≤ 1055

/-- The single coefficient (70 R199 S2): a block with one nonzero entry of magnitude at most 2128, wherever it is, is
legal. -/
def Obligations.SingleCoefficientIsLegal : Prop :=
  ∀ (B : Block) (p : Fin 64), (∀ i, i ≠ p → B i = 0) → -2128 ≤ B p → B p ≤ 2128 → LegalBlock B

/-- The weighted sum (70 R199 S3): a block whose entries' magnitudes, each divided by its limit `M[i]`, sum to at most 1
is legal. -/
def Obligations.WeightedSumIsLegal : Prop := ∀ B : Block, weightedSum B ≤ 1 → LegalBlock B

/-- The bound of the box is tight (70 R199 S1): the pattern at 151 is legal with either sign; at 152 every row is legal
and `COL 0` overflows first at `q2`, with the value 2158081824, with all signs reversed -2158081643. -/
def Obligations.BoxBoundIsTight : Prop :=
  LegalBlock (boxPattern 151) ∧ LegalBlock (boxPattern (-151)) ∧
  (∀ r, RowLegal ((boxPattern 152).row r) ∧ RowLegal ((boxPattern (-152)).row r)) ∧
  firstOverflow (colChecks ((rowPass (boxPattern 152)).col 0)) = some .q2 ∧
  (Node.q2, 2158081824) ∈ colChecks ((rowPass (boxPattern 152)).col 0) ∧
  firstOverflow (colChecks ((rowPass (boxPattern (-152))).col 0)) = some .q2 ∧
  (Node.q2, -2158081643) ∈ colChecks ((rowPass (boxPattern (-152))).col 0)

/-- The bounds of a single coefficient are tight (70 R199 S2): at (0,7) every magnitude up to 3483 is legal and 3484
overflows in `ROW 0` at `q4` = 2147837224; nowhere in the block does a magnitude below 2130 overflow, and 2130 at (3,3)
overflows in `COL 2` at `q4` = 2147694596. -/
def Obligations.SingleCoefficientBoundsAreTight : Prop :=
  (∀ v : Int, -3483 ≤ v → v ≤ 3483 → LegalBlock (singleBlock 7 v)) ∧
  firstOverflow (rowChecks ((singleBlock 7 3484).row 0)) = some .q4 ∧
  (Node.q4, 2147837224) ∈ rowChecks ((singleBlock 7 3484).row 0) ∧
  (∀ (p : Fin 64) (v : Int), -2130 < v → v < 2130 → LegalBlock (singleBlock p v)) ∧
  (∀ r, RowLegal ((singleBlock 27 2130).row r)) ∧
  firstOverflow (colChecks ((rowPass (singleBlock 27 2130)).col 2)) = some .q4 ∧
  (Node.q4, 2147694596) ∈ colChecks ((rowPass (singleBlock 27 2130)).col 2)
end

