-- ==== Sys2Proof/Laws/Memory.lean ====
section
/-! SUPPORT. The laws of the block buffer: read after write, the canonical form, and what the eight reads and the eight
writes of a micro-operation do. -/

namespace Sys2Proof.Machine

open Sys2Proof

/-! ### Read after write -/

@[simp] theorem read_nil (i : Nat) : Memory.read [] i = none := rfl

theorem read_cons (j : Nat) (w : Word) (m : Memory) (i : Nat) :
    Memory.read ((j, w) :: m) i = if j = i then some w else Memory.read m i := rfl

@[simp] theorem read_write_same (m : Memory) (i : Nat) (v : Word) :
    Memory.read (Memory.write m i v) i = some v := by
  induction m with
  | nil => simp [Memory.write, read_cons]
  | cons cell m ih =>
    obtain ⟨j, w⟩ := cell
    simp only [Memory.write]
    split
    · simp [read_cons]
    · split
      · simp [read_cons]
      · simp [read_cons, ih, show j ≠ i by omega]

theorem read_write_other {i n : Nat} (m : Memory) (v : Word) (h : n ≠ i) :
    Memory.read (Memory.write m i v) n = Memory.read m n := by
  induction m with
  | nil => simp [Memory.write, read_cons, h.symm]
  | cons cell m ih =>
    obtain ⟨j, w⟩ := cell
    simp only [Memory.write]
    split
    · simp [read_cons, h.symm]
    · split
      · next hij => subst hij; simp [read_cons, h.symm]
      · simp [read_cons, ih]

theorem read_write (m : Memory) (i n : Nat) (v : Word) :
    Memory.read (Memory.write m i v) n = if n = i then some v else Memory.read m n := by
  by_cases h : n = i
  · subst h; simp
  · simp [h, read_write_other m v h]

/-! ### The canonical form -/

theorem wfFrom_cons (lo i : Nat) (w : Word) (m : Memory) :
    Memory.wfFrom lo ((i, w) :: m) = true ↔ lo ≤ i ∧ i < 64 ∧ Memory.wfFrom (i + 1) m = true := by
  simp [Memory.wfFrom, and_assoc]

theorem wfFrom_mono {lo lo' : Nat} {m : Memory} (h : lo' ≤ lo) (hm : Memory.wfFrom lo m = true) :
    Memory.wfFrom lo' m = true := by
  cases m with
  | nil => rfl
  | cons cell m => rw [wfFrom_cons] at *; exact ⟨by omega, hm.2⟩

theorem wfFrom_write {lo i : Nat} {m : Memory} (v : Word) (hm : Memory.wfFrom lo m = true) (hi : i < 64)
    (hlo : lo ≤ i) : Memory.wfFrom lo (Memory.write m i v) = true := by
  induction m generalizing lo with
  | nil => simp [Memory.write, Memory.wfFrom, hi, hlo]
  | cons cell m ih =>
    obtain ⟨j, w⟩ := cell
    rw [wfFrom_cons] at hm
    simp only [Memory.write]
    split
    · simp only [wfFrom_cons]; exact ⟨hlo, hi, by omega, hm.2⟩
    · split
      · next hij => subst hij; simpa only [wfFrom_cons] using hm
      · rw [wfFrom_cons]; exact ⟨hm.1, hm.2.1, ih hm.2.2 (by omega)⟩

/-- A write of an entry keeps the canonical form. -/
theorem wf_write {m : Memory} (i : Fin 64) (v : Word) (hm : Memory.wf m = true) :
    Memory.wf (Memory.write m i.val v) = true := wfFrom_write v hm i.isLt (Nat.zero_le _)

theorem wf_reset : Memory.wf State.reset.blk = true := rfl

theorem read_eq_none_of_lt {lo n : Nat} {m : Memory} (hm : Memory.wfFrom lo m = true) (h : n < lo) :
    Memory.read m n = none := by
  induction m generalizing lo with
  | nil => rfl
  | cons cell m ih =>
    obtain ⟨j, w⟩ := cell
    rw [wfFrom_cons] at hm
    rw [read_cons, if_neg (by omega), ih hm.2.2 (by omega)]

/-- Two canonical buffers that read alike are the same list. -/
theorem eq_of_read_eq {lo : Nat} {m m' : Memory} (hm : Memory.wfFrom lo m = true) (hm' : Memory.wfFrom lo m' = true)
    (h : ∀ n, Memory.read m n = Memory.read m' n) : m = m' := by
  induction m generalizing lo m' with
  | nil =>
    cases m' with
    | nil => rfl
    | cons cell m' =>
      obtain ⟨j, w⟩ := cell
      have := h j
      rw [read_cons, if_pos rfl] at this
      cases this
  | cons cell m ih =>
    obtain ⟨j, w⟩ := cell
    rw [wfFrom_cons] at hm
    cases m' with
    | nil => have := h j; simp [read_cons] at this
    | cons cell' m' =>
      obtain ⟨j', w'⟩ := cell'
      rw [wfFrom_cons] at hm'
      have hj : j = j' := by
        rcases Nat.lt_trichotomy j j' with hlt | heq | hgt
        · have := h j
          rw [read_cons, if_pos rfl, read_cons, if_neg (by omega), read_eq_none_of_lt hm'.2.2 (by omega)] at this
          cases this
        · exact heq
        · have := h j'
          rw [read_cons, if_neg (by omega), read_cons, if_pos rfl, read_eq_none_of_lt hm.2.2 (by omega)] at this
          cases this
      subst hj
      have hw := h j
      simp only [read_cons, if_true] at hw
      cases hw
      congr 1
      refine ih hm.2.2 hm'.2.2 fun n => ?_
      by_cases hn : j = n
      · subst hn
        rw [read_eq_none_of_lt hm.2.2 (Nat.lt_succ_self _), read_eq_none_of_lt hm'.2.2 (Nat.lt_succ_self _)]
      · simpa [read_cons, hn] using h n

/-! ### The two addressing modes -/

theorem rowIndex_injective {r j l : Fin 8} (h : rowIndex r j = rowIndex r l) : j = l := by
  simp only [rowIndex, Fin.ext_iff] at h; omega

theorem colIndex_injective {c j l : Fin 8} (h : colIndex c j = colIndex c l) : j = l := by
  simp only [colIndex, Fin.ext_iff] at h; omega

@[simp] theorem rowOf_rowIndex (r j : Fin 8) : rowOf (rowIndex r j) = r := by
  apply Fin.ext; simp only [rowOf, rowIndex]; omega

@[simp] theorem colOf_rowIndex (r j : Fin 8) : colOf (rowIndex r j) = j := by
  apply Fin.ext; simp only [colOf, rowIndex]; omega

@[simp] theorem rowOf_colIndex (c j : Fin 8) : rowOf (colIndex c j) = j := by
  apply Fin.ext; simp only [rowOf, colIndex]; omega

@[simp] theorem colOf_colIndex (c j : Fin 8) : colOf (colIndex c j) = c := by
  apply Fin.ext; simp only [colOf, colIndex]; omega

theorem rowIndex_rowOf_colOf (i : Fin 64) : rowIndex (rowOf i) (colOf i) = i := by
  apply Fin.ext; simp only [rowIndex, rowOf, colOf]; omega

theorem colIndex_colOf_rowOf (i : Fin 64) : colIndex (colOf i) (rowOf i) = i := by
  apply Fin.ext; simp only [colIndex, rowOf, colOf]; omega

/-! ### The eight reads -/

theorem entry_eq_some {s : State} {i : Fin 64} {v : Int} :
    entry s i = some v ↔ ∃ w, Memory.read s.blk i.val = some w ∧ w.toInt = v := by
  simp [entry]

theorem readEntry_of_entry {s : State} {i : Fin 64} {v : Int} (h : entry s i = some v) :
    readEntry s.blk i = .ok v := by
  obtain ⟨w, hw, rfl⟩ := entry_eq_some.1 h
  simp [readEntry, hw]

theorem readEntry_of_none {s : State} {i : Fin 64} (h : entry s i = none) :
    readEntry s.blk i = .error (.uninitRead i) := by
  simp only [entry, Option.map_eq_none_iff] at h
  simp [readEntry, h]

/-- Eight defined entries are read. -/
theorem readEight_of_holds {s : State} {addr : Fin 8 → Fin 64} {x : Vector Int 8} (h : HoldsEight s addr x) :
    readEight s.blk addr = .ok x := by
  have e : ∀ j : Fin 8, readEntry s.blk (addr j) = .ok x[j] := fun j => readEntry_of_entry (h j)
  simp only [readEight, e, bind, Except.bind, pure, Except.pure]
  congr 1
  ext i hi
  match i, hi with
  | 0, _ | 1, _ | 2, _ | 3, _ | 4, _ | 5, _ | 6, _ | 7, _ => rfl

/-- Every eight reads answer the values held, or the fault of the first place without one. -/
theorem readEight_cases (s : State) (addr : Fin 8 → Fin 64) :
    (∃ x, HoldsEight s addr x ∧ readEight s.blk addr = .ok x) ∨
    ∃ j, entry s (addr j) = none ∧ readEight s.blk addr = .error (.uninitRead (addr j)) := by
  by_cases h : ∀ j, (entry s (addr j)).isSome
  · left
    refine ⟨Vector.ofFn fun j => (entry s (addr j)).get (h j), ?_, ?_⟩
    · intro j; simp
    · exact readEight_of_holds fun j => by simp
  · right
    have key : ∀ j, (entry s (addr j) = none ∧ readEntry s.blk (addr j) = .error (.uninitRead (addr j))) ∨
        ∃ v, readEntry s.blk (addr j) = .ok v ∧ entry s (addr j) = some v := fun j => by
      cases hj : entry s (addr j) with
      | none => exact .inl ⟨rfl, readEntry_of_none hj⟩
      | some v => exact .inr ⟨v, readEntry_of_entry hj, rfl⟩
    simp only [readEight, bind, Except.bind, pure, Except.pure]
    rcases key 0 with ⟨h0, e0⟩ | ⟨_, e0, h0⟩
    · exact ⟨0, h0, by simp [e0]⟩
    rcases key 1 with ⟨h1, e1⟩ | ⟨_, e1, h1⟩
    · exact ⟨1, h1, by simp [e0, e1]⟩
    rcases key 2 with ⟨h2, e2⟩ | ⟨_, e2, h2⟩
    · exact ⟨2, h2, by simp [e0, e1, e2]⟩
    rcases key 3 with ⟨h3, e3⟩ | ⟨_, e3, h3⟩
    · exact ⟨3, h3, by simp [e0, e1, e2, e3]⟩
    rcases key 4 with ⟨h4, e4⟩ | ⟨_, e4, h4⟩
    · exact ⟨4, h4, by simp [e0, e1, e2, e3, e4]⟩
    rcases key 5 with ⟨h5, e5⟩ | ⟨_, e5, h5⟩
    · exact ⟨5, h5, by simp [e0, e1, e2, e3, e4, e5]⟩
    rcases key 6 with ⟨h6, e6⟩ | ⟨_, e6, h6⟩
    · exact ⟨6, h6, by simp [e0, e1, e2, e3, e4, e5, e6]⟩
    rcases key 7 with ⟨h7, e7⟩ | ⟨_, e7, h7⟩
    · exact ⟨7, h7, by simp [e0, e1, e2, e3, e4, e5, e6, e7]⟩
    refine absurd (fun j => ?_) h
    match j with
    | 0 | 1 | 2 | 3 | 4 | 5 | 6 | 7 => simp [*]

/-! ### The eight writes -/

theorem wf_writeList {addr : Fin 8 → Fin 64} {y : Vector Int 8} (l : List (Fin 8)) {m : Memory}
    (hm : Memory.wf m = true) : Memory.wf (writeList addr y l m) = true := by
  induction l generalizing m with
  | nil => exact hm
  | cons j js ih => exact ih (wf_write _ _ hm)

/-- The eight writes keep the canonical form. -/
theorem wf_writeEight {m : Memory} (addr : Fin 8 → Fin 64) (y : Vector Int 8) (hm : Memory.wf m = true) :
    Memory.wf (writeEight m addr y) = true := wf_writeList _ hm

theorem read_writeList_other {addr : Fin 8 → Fin 64} {y : Vector Int 8} {n : Nat} (l : List (Fin 8)) (m : Memory)
    (h : ∀ j ∈ l, n ≠ (addr j).val) : Memory.read (writeList addr y l m) n = Memory.read m n := by
  induction l generalizing m with
  | nil => rfl
  | cons j js ih =>
    rw [writeList, ih _ fun k hk => h k (by simp [hk]), read_write_other _ _ (h j (by simp))]

theorem read_writeList_mem {addr : Fin 8 → Fin 64} (hinj : ∀ j l, addr j = addr l → j = l) {y : Vector Int 8}
    {j : Fin 8} (l : List (Fin 8)) (m : Memory) (h : j ∈ l) :
    Memory.read (writeList addr y l m) (addr j).val = some (Word.ofInt y[j]) := by
  induction l generalizing m with
  | nil => cases h
  | cons k ks ih =>
    rw [writeList]
    by_cases hj : j ∈ ks
    · exact ih _ hj
    · obtain rfl : j = k := by simpa [hj] using h
      rw [read_writeList_other, read_write_same]
      intro l hl he
      exact hj ((hinj _ _ (Fin.ext he)) ▸ hl)

/-- Outside the eight places nothing is written. -/
theorem read_writeEight_other {m : Memory} {addr : Fin 8 → Fin 64} {y : Vector Int 8} {n : Nat}
    (h : ∀ j, n ≠ (addr j).val) : Memory.read (writeEight m addr y) n = Memory.read m n :=
  read_writeList_other _ _ fun j _ => h j

/-- Each of the eight places holds its value. -/
theorem read_writeEight_same {m : Memory} {addr : Fin 8 → Fin 64} (hinj : ∀ j l, addr j = addr l → j = l)
    {y : Vector Int 8} (j : Fin 8) : Memory.read (writeEight m addr y) (addr j).val = some (Word.ofInt y[j]) :=
  read_writeList_mem hinj _ _ (by revert j; decide)

end Sys2Proof.Machine
end

