-- ==== Sys2Proof/Laws/State.lean ====
section
/-! SUPPORT. One lemma per field per named update of State, per shape of STATUS, and per field of the reset state. -/

namespace Sys2Proof.Machine

open Sys2Proof

@[simp] theorem raiseInvalidLength_blk (len : BitVec 8) (s : State) : (raiseInvalidLength len s).blk = s.blk := rfl
@[simp] theorem raiseInvalidLength_seq (len : BitVec 8) (s : State) : (raiseInvalidLength len s).seq = s.seq := rfl
@[simp] theorem raiseInvalidLength_status (len : BitVec 8) (s : State) : (raiseInvalidLength len s).status = Status.invalidLength len := rfl
@[simp] theorem raiseInvalidLength_resp (len : BitVec 8) (s : State) : (raiseInvalidLength len s).resp = s.resp := rfl
@[simp] theorem raiseInvalidLength_inputs (len : BitVec 8) (s : State) : (raiseInvalidLength len s).inputs = s.inputs := rfl

@[simp] theorem acknowledge_blk (s : State) : (acknowledge s).blk = s.blk := rfl
@[simp] theorem acknowledge_seq (s : State) : (acknowledge s).seq = s.seq := rfl
@[simp] theorem acknowledge_status (s : State) : (acknowledge s).status = Status.idle := rfl
@[simp] theorem acknowledge_resp (s : State) : (acknowledge s).resp = s.resp := rfl
@[simp] theorem acknowledge_inputs (s : State) : (acknowledge s).inputs = s.inputs := rfl

@[simp] theorem beginCall_blk (s : State) : (beginCall s).blk = s.blk := rfl
@[simp] theorem beginCall_seq (s : State) : (beginCall s).seq = 0#5 := rfl
@[simp] theorem beginCall_status (s : State) : (beginCall s).status = Status.running := rfl
@[simp] theorem beginCall_resp (s : State) : (beginCall s).resp = s.resp := rfl
@[simp] theorem beginCall_inputs (s : State) : (beginCall s).inputs = s.inputs := rfl

@[simp] theorem completeCall_blk (s : State) : (completeCall s).blk = s.blk := rfl
@[simp] theorem completeCall_seq (s : State) : (completeCall s).seq = 0#5 := rfl
@[simp] theorem completeCall_status (s : State) : (completeCall s).status = Status.completed := rfl
@[simp] theorem completeCall_resp (s : State) : (completeCall s).resp = s.resp := rfl
@[simp] theorem completeCall_inputs (s : State) : (completeCall s).inputs = s.inputs := rfl

@[simp] theorem platformReset_blk (s : State) : (platformReset s).blk = [] := rfl
@[simp] theorem platformReset_seq (s : State) : (platformReset s).seq = 0#5 := rfl
@[simp] theorem platformReset_status (s : State) : (platformReset s).status = Status.idle := rfl
@[simp] theorem platformReset_resp (s : State) : (platformReset s).resp = none := rfl
@[simp] theorem platformReset_inputs (s : State) : (platformReset s).inputs = s.inputs := rfl

@[simp] theorem afterInput_blk (s : State) : (afterInput s).blk = s.blk := rfl
@[simp] theorem afterInput_seq (s : State) : (afterInput s).seq = s.seq := rfl
@[simp] theorem afterInput_status (s : State) : (afterInput s).status = s.status := rfl
@[simp] theorem afterInput_resp (s : State) : (afterInput s).resp = s.resp := rfl
@[simp] theorem afterInput_inputs (s : State) : (afterInput s).inputs = s.inputs.tail := rfl

@[simp] theorem placeCommand_blk (s : State) (w : BitVec 40) : (placeCommand s w).blk = s.blk := rfl
@[simp] theorem placeCommand_seq (s : State) (w : BitVec 40) : (placeCommand s w).seq = s.seq := rfl
@[simp] theorem placeCommand_status (s : State) (w : BitVec 40) : (placeCommand s w).status = s.status := rfl
@[simp] theorem placeCommand_resp (s : State) (w : BitVec 40) : (placeCommand s w).resp = s.resp := rfl
@[simp] theorem placeCommand_inputs (s : State) (w : BitVec 40) : (placeCommand s w).inputs = Input.command w :: s.inputs := rfl

@[simp] theorem placeMicroOp_blk (s : State) (u : BitVec 5) : (placeMicroOp s u).blk = s.blk := rfl
@[simp] theorem placeMicroOp_seq (s : State) (u : BitVec 5) : (placeMicroOp s u).seq = u := rfl
@[simp] theorem placeMicroOp_status (s : State) (u : BitVec 5) : (placeMicroOp s u).status = Status.running := rfl
@[simp] theorem placeMicroOp_resp (s : State) (u : BitVec 5) : (placeMicroOp s u).resp = s.resp := rfl
@[simp] theorem placeMicroOp_inputs (s : State) (u : BitVec 5) : (placeMicroOp s u).inputs = Input.engineTurn :: s.inputs := rfl

@[simp] theorem idle_busy : Status.idle.busy = false := rfl
@[simp] theorem idle_done : Status.idle.done = false := rfl
@[simp] theorem idle_err : Status.idle.err = false := rfl
@[simp] theorem idle_ecode : Status.idle.ecode = 0#4 := rfl
@[simp] theorem idle_elen : Status.idle.elen = 0#8 := rfl

@[simp] theorem running_busy : Status.running.busy = true := rfl
@[simp] theorem running_done : Status.running.done = false := rfl
@[simp] theorem running_err : Status.running.err = false := rfl
@[simp] theorem running_ecode : Status.running.ecode = 0#4 := rfl
@[simp] theorem running_elen : Status.running.elen = 0#8 := rfl

@[simp] theorem completed_busy : Status.completed.busy = false := rfl
@[simp] theorem completed_done : Status.completed.done = true := rfl
@[simp] theorem completed_err : Status.completed.err = false := rfl
@[simp] theorem completed_ecode : Status.completed.ecode = 0#4 := rfl
@[simp] theorem completed_elen : Status.completed.elen = 0#8 := rfl

@[simp] theorem invalidLength_busy (len : BitVec 8) : (Status.invalidLength len).busy = false := rfl
@[simp] theorem invalidLength_done (len : BitVec 8) : (Status.invalidLength len).done = false := rfl
@[simp] theorem invalidLength_err (len : BitVec 8) : (Status.invalidLength len).err = true := rfl
@[simp] theorem invalidLength_ecode (len : BitVec 8) : (Status.invalidLength len).ecode = 1#4 := rfl
@[simp] theorem invalidLength_elen (len : BitVec 8) : (Status.invalidLength len).elen = len := rfl

@[simp] theorem reset_blk : State.reset.blk = [] := rfl
@[simp] theorem reset_seq : State.reset.seq = 0#5 := rfl
@[simp] theorem reset_status : State.reset.status = Status.idle := rfl
@[simp] theorem reset_resp : State.reset.resp = none := rfl
@[simp] theorem reset_inputs : State.reset.inputs = [] := rfl

@[simp] theorem okay_err (v : Word) : (Response.okay v).err = false := rfl
@[simp] theorem okay_rdata (v : Word) : (Response.okay v).rdata = v := rfl
@[simp] theorem error_err : Response.error.err = true := rfl
@[simp] theorem error_rdata : Response.error.rdata = 0#32 := rfl

@[simp] theorem busyOut_eq (s : State) : s.busyOut = s.status.busy := rfl
@[simp] theorem doneOut_eq (s : State) : s.doneOut = s.status.done := rfl
@[simp] theorem errOut_eq (s : State) : s.errOut = s.status.err := rfl

@[simp] theorem idle_word : Status.idle.word = 0#32 := by decide
@[simp] theorem running_word : Status.running.word = 1#32 := by decide
@[simp] theorem completed_word : Status.completed.word = 2#32 := by decide

/-- A state of the shape BUSY is the only shape with the bit BUSY. -/
theorem StatusShape.eq_running {st : Status} (h : StatusShape st) (hb : st.busy = true) : st = Status.running := by
  rcases h with rfl | rfl | rfl | ⟨len, -, rfl⟩ <;> simp_all

end Sys2Proof.Machine
end

