-- ==== Sys2Proof/Laws/Ops.lean ====
section
/-! SUPPORT. What each shared operation can do, said once: the responses, the checked node, one butterfly in place, and
one step. -/

namespace Sys2Proof.Machine

open Sys2Proof

/-! ### Responses -/

theorem respondOkay_eq (v : Word) (s : State) :
    respondOkay v s = .next { s with resp := some (Response.okay v) } := rfl

theorem respondError_eq (s : State) : respondError s = .next { s with resp := some Response.error } := rfl

/-! ### Checked nodes -/

theorem chk_of_fits {n : Node} {v : Int} (h : Fits v) : chk n v = .ok v := if_pos h

theorem chk_of_not_fits {n : Node} {v : Int} (h : ¬ Fits v) : chk n v = .error (.overflow n) := if_neg h

/-- A checked node, used: either it fits and the computation goes on with its exact value, or the fault names it. -/
theorem chk_bind {α : Type} (n : Node) (v : Int) (f : Int → Except Fault α) :
    (chk n v >>= f) = if Fits v then f v else .error (.overflow n) := by
  unfold chk; split <;> rfl

theorem shl_eq_chk (n : Node) (v : Int) (k : Nat) : shl n v k = chk n (v * 2 ^ k) := rfl

theorem mulRom_eq_chk (n : Node) (k : Fin 13) (v : Int) : mulRom n k v = chk n ((rom k : Int) * v) := rfl

/-- A value that fits survives being stored and read. -/
theorem toInt_ofInt_of_fits {v : Int} (h : Fits v) : (Word.ofInt v).toInt = v := by
  rw [Word.ofInt, BitVec.toInt_ofInt]
  exact Int.bmod_eq_of_le (by omega) (by omega)

/-- A word's integer fits. -/
theorem fits_toInt (w : Word) : Fits w.toInt := by
  have h1 := BitVec.toInt_lt (x := w)
  have h2 := BitVec.le_toInt w
  constructor <;> omega

/-! ### First overflow -/

theorem firstOverflow_nil : firstOverflow [] = none := rfl

theorem firstOverflow_cons (n : Node) (v : Int) (l : List (Node × Int)) :
    firstOverflow ((n, v) :: l) = if Fits v then firstOverflow l else some n := rfl

theorem firstOverflow_append (l l' : List (Node × Int)) :
    firstOverflow (l ++ l') = (firstOverflow l).or (firstOverflow l') := by
  induction l with
  | nil => rfl
  | cons p l ih =>
    obtain ⟨n, v⟩ := p
    rw [List.cons_append, firstOverflow_cons, firstOverflow_cons, ih]
    split <;> rfl

theorem firstOverflow_eq_none {l : List (Node × Int)} : firstOverflow l = none ↔ ∀ p ∈ l, Fits p.2 := by
  induction l with
  | nil => simp [firstOverflow]
  | cons p l ih =>
    obtain ⟨n, v⟩ := p
    rw [firstOverflow_cons, List.forall_mem_cons, ← ih]
    by_cases h : Fits v
    · rw [if_pos h]; exact ⟨fun hl => ⟨h, hl⟩, fun hl => hl.2⟩
    · rw [if_neg h]; exact ⟨(nomatch ·), fun hl => absurd hl.1 h⟩

/-! ### One butterfly in place -/

/-- A butterfly in place answers a next state exactly when the eight places hold values and the butterfly has a result,
and then this is the state. -/
theorem butterflyInPlace_next {addr : Fin 8 → Fin 64} {bfly : Vector Int 8 → Except Fault (Vector Int 8)}
    {s t : State} : butterflyInPlace addr bfly s = .next t ↔
      ∃ x y, readEight s.blk addr = .ok x ∧ bfly x = .ok y ∧
        t = { s with blk := writeEight s.blk addr y, seq := s.seq + 1#5 } := by
  unfold butterflyInPlace
  split
  · next h => simp [h]
  · next x h =>
    split
    · next h' => simp [h, h']
    · next y h' =>
      simp only [Host.Outcome.next.injEq, h, Except.ok.injEq]
      constructor
      · rintro rfl; exact ⟨x, y, rfl, h', rfl⟩
      · rintro ⟨x', y', rfl, hy, rfl⟩
        rw [h'] at hy
        cases hy
        rfl

/-- It never refuses. -/
theorem butterflyInPlace_not_refused {addr : Fin 8 → Fin 64} {bfly : Vector Int 8 → Except Fault (Vector Int 8)}
    {s : State} {r : Refusal} : butterflyInPlace addr bfly s ≠ .refused r := by
  unfold butterflyInPlace
  split
  · simp
  · split <;> simp

/-- Its fault is the reads' or the butterfly's. -/
theorem butterflyInPlace_fault {addr : Fin 8 → Fin 64} {bfly : Vector Int 8 → Except Fault (Vector Int 8)}
    {s : State} {f : Fault} : butterflyInPlace addr bfly s = .fault f ↔
      readEight s.blk addr = .error f ∨ ∃ x, readEight s.blk addr = .ok x ∧ bfly x = .error f := by
  unfold butterflyInPlace
  split
  · next h => simp [h]
  · next x h =>
    split
    · next f' h' => simp [h, h']
    · next y h' => simp [h, h']

end Sys2Proof.Machine
end

