-- ==== Sys2Proof/Laws/Butterfly.lean ====
section
/-! SUPPORT. Each stage of the butterfly as a list of checked nodes with exact values and a result. -/

namespace Sys2Proof.Machine

open Sys2Proof

/-- A computation behind a list of checks: the first node that does not fit is the fault. -/
def guardAll {α : Type} (l : List (Node × Int)) (k : Except Fault α) : Except Fault α :=
  match firstOverflow l with
  | none => k
  | some n => .error (.overflow n)

theorem guardAll_nil {α : Type} (k : Except Fault α) : guardAll [] k = k := rfl

theorem guardAll_cons {α : Type} (n : Node) (v : Int) (l : List (Node × Int)) (k : Except Fault α) :
    guardAll ((n, v) :: l) k = if Fits v then guardAll l k else .error (.overflow n) := by
  unfold guardAll
  by_cases h : Fits v
  · rw [firstOverflow_cons, if_pos h, if_pos h]
  · rw [firstOverflow_cons, if_neg h, if_neg h]

theorem guardAll_append {α : Type} (l l' : List (Node × Int)) (k : Except Fault α) :
    guardAll (l ++ l') k = guardAll l (guardAll l' k) := by
  induction l with
  | nil => rfl
  | cons p l ih => obtain ⟨n, v⟩ := p; rw [List.cons_append, guardAll_cons, guardAll_cons, ih]

theorem guardAll_bind {α β : Type} (l : List (Node × Int)) (k : Except Fault α) (f : α → Except Fault β) :
    (guardAll l k >>= f) = guardAll l (k >>= f) := by
  unfold guardAll; split <;> rfl

/-- A checked node in front of a list of checks. -/
theorem chk_guard {α : Type} {n : Node} {v v' : Int} {l : List (Node × Int)} {f : Int → Except Fault α}
    {k : Except Fault α} (hv : v = v') (h : f v' = guardAll l k) : (chk n v >>= f) = guardAll ((n, v') :: l) k := by
  subst hv; rw [chk_bind, guardAll_cons, h]

/-- The prescaled values by the two that are computed and the six that are copied (R112, R131). -/
def prescaledOf (a0 a1 x1 x2 x3 x5 x6 x7 : Int) : Prescaled := ⟨a0, a1, x6, x2, x1, x7, x5, x3⟩

theorem prescale_eq (shift : Nat) (bias : Int) (x : Vector Int 8) :
    prescale shift bias x = guardAll (prescaleChecks (2 ^ shift) bias x[0] x[4])
      (.ok (prescaledOf (2 ^ shift * x[0] + bias) (2 ^ shift * x[4]) x[1] x[2] x[3] x[5] x[6] x[7])) := by
  refine chk_guard (Int.mul_comm _ _) (chk_guard rfl (chk_guard (Int.mul_comm _ _) ?_))
  rfl

theorem stage1Row_eq (a0 a1 x1 x2 x3 x5 x6 x7 : Int) :
    stage1Row (prescaledOf a0 a1 x1 x2 x3 x5 x6 x7) = guardAll (rotationChecksRow x1 x3 x5 x7)
      (.ok ⟨2841 * x1 + 565 * x7, 565 * x1 - 2841 * x7, 1609 * x5 + 2408 * x3,
        2408 * x5 - 1609 * x3⟩) := by
  simp only [stage1Row, rotationChecksRow, prescaledOf, mulRom_eq_chk, rom]
  iterate 12 refine chk_guard (by first | rfl | ring) ?_
  rfl

theorem stage1Col_eq (a0 a1 x1 x2 x3 x5 x6 x7 : Int) :
    stage1Col (prescaledOf a0 a1 x1 x2 x3 x5 x6 x7) = guardAll (rotationChecksCol x1 x3 x5 x7)
      (.ok ⟨(2841 * x1 + 565 * x7 + 4) / 8, (565 * x1 - 2841 * x7 + 4) / 8,
        (1609 * x5 + 2408 * x3 + 4) / 8, (2408 * x5 - 1609 * x3 + 4) / 8⟩) := by
  simp only [stage1Col, rotationChecksCol, prescaledOf, mulRom_eq_chk, rom]
  iterate 14 refine chk_guard (by first | rfl | ring) ?_
  rfl

theorem recombineOdd_eq (c8 c0 c2 c3 : Int) (b : Rotated) :
    recombineOdd c8 c0 c2 c3 b = guardAll [(.c1, b.b4 + b.b6), (.c4, b.b4 - b.b6), (.c6, b.b5 + b.b7), (.c5, b.b5 - b.b7)]
      (.ok ⟨c0, b.b4 + b.b6, c2, c3, b.b4 - b.b6, b.b5 - b.b7, b.b5 + b.b7, c8⟩) := by
  refine chk_guard rfl (chk_guard rfl (chk_guard rfl (chk_guard rfl ?_)))
  rfl

theorem stage2Row_eq (a0 a1 x1 x2 x3 x5 x6 x7 : Int) (b : Rotated) :
    stage2Row (prescaledOf a0 a1 x1 x2 x3 x5 x6 x7) b = guardAll (evenChecksRow a0 a1 x2 x6)
      (recombineOdd (a0 + a1) (a0 - a1) (1108 * x2 - 2676 * x6) (2676 * x2 + 1108 * x6) b) := by
  simp only [stage2Row, evenChecksRow, prescaledOf, mulRom_eq_chk, rom]
  iterate 8 refine chk_guard (by first | rfl | ring) ?_
  rfl

theorem stage2Col_eq (a0 a1 x1 x2 x3 x5 x6 x7 : Int) (b : Rotated) :
    stage2Col (prescaledOf a0 a1 x1 x2 x3 x5 x6 x7) b = guardAll (evenChecksCol a0 a1 x2 x6)
      (recombineOdd (a0 + a1) (a0 - a1) ((1108 * x2 - 2676 * x6 + 4) / 8) ((2676 * x2 + 1108 * x6 + 4) / 8)
        b) := by
  simp only [stage2Col, evenChecksCol, prescaledOf, mulRom_eq_chk, rom]
  iterate 9 refine chk_guard (by first | rfl | ring) ?_
  rfl

theorem stage3_eq (c : Recombined) :
    stage3 c = guardAll
      [ (.d7, c.c8 + c.c3), (.d8, c.c8 - c.c3), (.d3, c.c0 + c.c2), (.d0, c.c0 - c.c2),
        (.s4, c.c4 + c.c5), (.q2, 181 * (c.c4 + c.c5)), (.g2, 181 * (c.c4 + c.c5) + 128),
        (.s5, c.c4 - c.c5), (.q4, 181 * (c.c4 - c.c5)), (.g4, 181 * (c.c4 - c.c5) + 128) ]
      (.ok ⟨c.c8 + c.c3, c.c1, c.c0 + c.c2, (181 * (c.c4 + c.c5) + 128) / 256, c.c0 - c.c2,
        (181 * (c.c4 - c.c5) + 128) / 256, c.c8 - c.c3, c.c6⟩) := by
  simp only [stage3, mulRom_eq_chk, rom]
  iterate 10 refine chk_guard rfl ?_
  rfl

theorem stage4_eq (shift : Nat) (d : FinalTerms) :
    stage4 shift d = guardAll
      [ (.e0, d.d7 + d.c1), (.e1, d.d3 + d.d2), (.e2, d.d0 + d.d4), (.e3, d.d8 + d.c6),
        (.e4, d.d8 - d.c6), (.e5, d.d0 - d.d4), (.e6, d.d3 - d.d2), (.e7, d.d7 - d.c1) ]
      (.ok (#v[d.d7 + d.c1, d.d3 + d.d2, d.d0 + d.d4, d.d8 + d.c6, d.d8 - d.c6, d.d0 - d.d4, d.d3 - d.d2,
        d.d7 - d.c1].map (· / 2 ^ shift))) := by
  simp only [stage4]
  iterate 8 refine chk_guard rfl ?_
  simp [guardAll_nil, pure, Except.pure, sar]

end Sys2Proof.Machine
end

