-- ==== Sys2Proof/Laws/Decode.lean ====
section
/-! SUPPORT. A command word and its three fields (spec 30_encoding.md R51). -/

namespace Sys2Proof

/-- The bits of a command word. -/
theorem getLsbD_commandWord (wr : Bool) (addr : BitVec 7) (data : Word) (k : Nat) :
    (commandWord wr addr data).getLsbD k =
      if k < 32 then data.getLsbD k else if k < 39 then addr.getLsbD (k - 32) else decide (k = 39) && wr := by
  have h : commandWord wr addr data = (BitVec.ofBool wr ++ addr ++ data : BitVec (1 + 7 + 32)) := rfl
  rw [h, BitVec.getLsbD_append, BitVec.getLsbD_append]
  split
  · rfl
  · split
    · next h1 h2 => rw [if_pos (by omega)]
    · next h1 h2 =>
      rw [if_neg (by omega), BitVec.getLsbD_ofBool]
      congr 1
      simp; omega

@[simp] theorem fieldW_commandWord (wr : Bool) (addr : BitVec 7) (data : Word) : fieldW (commandWord wr addr data) = wr := by
  rw [fieldW, getLsbD_commandWord]
  simp

@[simp] theorem fieldAddr_commandWord (wr : Bool) (addr : BitVec 7) (data : Word) :
    fieldAddr (commandWord wr addr data) = addr := by
  apply BitVec.eq_of_getLsbD_eq
  intro k hk
  rw [fieldAddr, BitVec.getLsbD_extractLsb', getLsbD_commandWord, if_neg (by omega), if_pos (by omega)]
  simp [hk]

@[simp] theorem fieldData_commandWord (wr : Bool) (addr : BitVec 7) (data : Word) :
    fieldData (commandWord wr addr data) = data := by
  apply BitVec.eq_of_getLsbD_eq
  intro k hk
  rw [fieldData, BitVec.getLsbD_extractLsb', getLsbD_commandWord, if_pos (by omega)]
  simp [hk]

/-- A command word is made of its own fields. -/
theorem commandWord_fields (w : BitVec 40) : commandWord (fieldW w) (fieldAddr w) (fieldData w) = w := by
  apply BitVec.eq_of_getLsbD_eq
  intro k hk
  rw [getLsbD_commandWord, fieldW, fieldAddr, fieldData, BitVec.getLsbD_extractLsb', BitVec.getLsbD_extractLsb']
  split
  · next h => simp [h]
  · split
    · next h1 h2 =>
      simp only [show k - 32 < 7 by omega, decide_true, Bool.true_and]
      congr 1; omega
    · have : k = 39 := by omega
      simp [this]

/-- Every command word is its three fields. -/
theorem eq_commandWord (w : BitVec 40) : ∃ wr addr data, w = commandWord wr addr data :=
  ⟨_, _, _, (commandWord_fields w).symm⟩

/-- What a write to CTRL decodes to (R55). -/
theorem decodeCtrl_ok {data : Word} {i : Instr} (h : decodeCtrl data = .ok i) :
    i = .ctrlNop ∨ i = .clear ∨ i = .start (fieldLen data) := by
  unfold decodeCtrl at h
  split_ifs at h <;> simp_all

/-- What a command word decodes to, with its `W`: a write of `blk`, a write of CTRL, or a read. -/
theorem decodeCommand_ok {w : BitVec 40} {i : Instr} (h : decodeCommand w = .ok i) :
    (fieldW w = true ∧ ((∃ k v, i = .wrBlk k v) ∨ decodeCtrl (fieldData w) = .ok i)) ∨
    (fieldW w = false ∧ ((∃ k, i = .rdBlk k) ∨ i = .rdStatus ∨ ∃ k, i = .rdRom k)) := by
  simp only [decodeCommand] at h
  cases hw : fieldW w <;> rw [hw] at h <;> simp only [if_true, Bool.false_eq_true, if_false] at h <;>
    split_ifs at h <;> first | (cases h; simp) | simp [h]

/-- No command word is a micro-operation. -/
theorem decodeCommand_not_microOp (w : BitVec 40) {i : Instr}
    (hi : (∃ r, i = .row r) ∨ (∃ c, i = .col c) ∨ i = .endCall) : decodeCommand w ≠ .ok i := by
  intro hd
  rcases decodeCommand_ok hd with ⟨-, ⟨_, _, rfl⟩ | h⟩ | ⟨-, ⟨_, rfl⟩ | rfl | ⟨_, rfl⟩⟩
  · simp at hi
  · rcases decodeCtrl_ok h with rfl | rfl | rfl <;> simp at hi
  all_goals simp at hi

end Sys2Proof
end

