-- ==== Sys2Proof/Laws/PerInstr.lean ====
section
/-! SUPPORT. Laws of every instruction as syntax, one lemma per constructor (LAWS.json). -/

namespace Sys2Proof.Laws.TableWord

open Sys2Proof

/-- The instruction's word is selected by a row of the table of its own name, or is a word the sequencer takes. -/
def wordInTable (i : Instr) : Bool :=
  match encode i with
  | .command w => commandTable.any fun row => row.mnemonic == i.mnemonic && row.selects w
  | .microOp u => decide (u.toNat ≤ 16)

/-- The word of a well-formed instruction is a word of its own row of the opcode table (30 R53), or, for a
micro-operation, one of the seventeen the sequencer takes (30 R58). -/
def Statement (i : Instr) : Prop := i.wellFormed = true → wordInTable i = true

/-- Masking a command word whose mask leaves the data bits out looks at `{W, ADDR}` alone. -/
theorem commandWord_and_high (wr : Bool) (addr : BitVec 7) (data : Word) (m : BitVec 8) :
    commandWord wr addr data &&& (m ++ 0#32) = ((BitVec.ofBool wr ++ addr : BitVec 8) &&& m) ++ 0#32 := by
  have h : commandWord wr addr data = ((BitVec.ofBool wr ++ addr : BitVec 8) ++ data : BitVec 40) := rfl
  rw [h, BitVec.and_append, BitVec.and_zero]

theorem wrBlk (i : Fin 64) (v : Word) : Statement (.wrBlk i v) := fun _ => by
  refine List.any_eq_true.2 ⟨⟨"WR_BLK", 0xC0#8 ++ 0#32, 0x80#8 ++ 0#32⟩, by decide, ?_⟩
  have h : ∀ i : Fin 64, (BitVec.ofBool true ++ BitVec.ofNat 7 i.val : BitVec 8) &&& 0xC0#8 = 0x80#8 := by decide
  simp only [OpcodeRow.selects, commandWord_and_high, h i]
  simp [Instr.mnemonic]

theorem rdBlk (i : Fin 64) : Statement (.rdBlk i) := by revert i; unfold Statement; decide

theorem ctrlNop : Statement .ctrlNop := by unfold Statement; decide

theorem start (len : BitVec 8) : Statement (.start len) := by revert len; unfold Statement; decide

theorem clear : Statement .clear := by unfold Statement; decide

theorem rdStatus : Statement .rdStatus := by unfold Statement; decide

theorem rdRom (k : Fin 16) : Statement (.rdRom k) := by revert k; unfold Statement; decide

theorem row (r : Fin 8) : Statement (.row r) := by revert r; unfold Statement; decide

theorem col (c : Fin 8) : Statement (.col c) := by revert c; unfold Statement; decide

theorem endCall : Statement .endCall := by unfold Statement; decide

end Sys2Proof.Laws.TableWord
end

