-- ==== Sys2Proof/Laws/Step.lean ====
section
/-! SUPPORT. The next move by the first input, one step by the next move, and everything a step that answers a next state
can have done (`step_cases`). -/

namespace Sys2Proof.Machine

open Sys2Proof

theorem nextAction_command {s : State} {w : BitVec 40} (h : HostMoves w s) :
    nextAction s = commandAction w (afterInput s) := by
  obtain ⟨rest, h⟩ := h
  simp [nextAction, afterInput, h]

theorem nextAction_reset {s : State} (h : ResetMoves s) : nextAction s = .resetAll (afterInput s) := by
  obtain ⟨rest, h⟩ := h
  simp [nextAction, afterInput, h]

theorem nextAction_engine {s : State} (h : EngineMoves s) : nextAction s = engineAction (afterInput s) := by
  rcases h with h | ⟨rest, h⟩
  · have : afterInput s = s := by cases s; simp_all [afterInput]
    simp [nextAction, h, this]
  · simp [nextAction, afterInput, h]

/-- Whose move it is: exactly one of the three agents'. -/
theorem moves_cases (s : State) : EngineMoves s ∨ (∃ w, HostMoves w s) ∨ ResetMoves s := by
  unfold EngineMoves HostMoves ResetMoves
  cases h : s.inputs with
  | nil => simp
  | cons i rest => cases i <;> simp

theorem step_resetAll {s : State} (h : ResetMoves s) : step s = .next (platformReset (afterInput s)) := by
  simp [step, nextAction_reset h]

theorem step_illegal {s : State} {w : BitVec 40} {e : DecodeError} (h : HostMoves w s)
    (hd : decodeCommand w = .error e) : step s = respondError (afterInput s) := by
  simp [step, nextAction_command h, commandAction, hd]

theorem withFetchWord_command (s : State) {nbits : Nat} (w : Nat) (h : 8 < nbits) :
    nextAction (s.withFetchWord nbits w) = commandAction (BitVec.ofNat 40 w) s := by
  simp [State.withFetchWord, placeTableWord, show ¬ nbits ≤ 8 by omega, nextAction, placeCommand]

theorem withFetchWord_microOp (s : State) {nbits : Nat} (w : Nat) (h : nbits ≤ 8) :
    nextAction (s.withFetchWord nbits w) =
      engineAction { s with seq := BitVec.ofNat 5 w, status := Status.running } := by
  simp [State.withFetchWord, placeTableWord, h, nextAction, placeMicroOp]

/-! ### Several steps -/

theorem runSteps_zero (s : State) : runSteps 0 s = .next s := rfl

theorem runSteps_succ_next {n : Nat} {s t : State} (h : step s = .next t) : runSteps (n + 1) s = runSteps n t := by
  simp [runSteps, h]

theorem runSteps_succ_fault {n : Nat} {s : State} {f : Fault} (h : step s = .fault f) :
    runSteps (n + 1) s = .fault f := by
  simp [runSteps, h]

theorem runSteps_succ_refused {n : Nat} {s : State} {r : Refusal} (h : step s = .refused r) :
    runSteps (n + 1) s = .refused r := by
  simp [runSteps, h]

/-- A run goes on from where its first part ended. -/
theorem runSteps_add_next {m n : Nat} {s t : State} (h : runSteps m s = .next t) :
    runSteps (m + n) s = runSteps n t := by
  induction m generalizing s with
  | zero => rw [runSteps_zero] at h; cases h; rw [Nat.zero_add]
  | succ m ih =>
    rw [Nat.succ_add]
    cases hs : step s with
    | next u => rw [runSteps_succ_next hs] at h ⊢; exact ih h
    | fault f => rw [runSteps_succ_fault hs] at h; cases h
    | refused r => rw [runSteps_succ_refused hs] at h; cases h

/-- A run that has stopped in a fault stays there. -/
theorem runSteps_add_fault {m n : Nat} {s : State} {f : Fault} (h : runSteps m s = .fault f) :
    runSteps (m + n) s = .fault f := by
  induction m generalizing s with
  | zero => cases h
  | succ m ih =>
    rw [Nat.succ_add]
    cases hs : step s with
    | next u => rw [runSteps_succ_next hs] at h ⊢; exact ih h
    | fault g => rw [runSteps_succ_fault hs] at h ⊢; exact h
    | refused r => rw [runSteps_succ_refused hs] at h; cases h

/-! ### Everything a step can do -/

/-- What a step that answers the next state `t` has done. -/
inductive StepCase (s t : State) : Prop where
  /-- The platform's reset. -/
  | reset (h : ResetMoves s) (ht : t = platformReset (afterInput s))
  /-- A host command that changes the response alone: a read, a no-op, or a refusal. -/
  | respond (w : BitVec 40) (h : HostMoves w s) (r : Response) (hr : r.err = true → r.rdata = 0#32)
      (hw : fieldW w = true → r.rdata = 0#32)
      (hn : s.status.busy = false → decodeCommand w ≠ .ok (.start 64#8)) (ht : t = { afterInput s with resp := some r })
  /-- A host write of an entry. -/
  | write (w : BitVec 40) (h : HostMoves w s) (hb : s.status.busy = false) (i : Fin 64) (v : Word)
      (hd : decodeCommand w = .ok (.wrBlk i v))
      (ht : t = { afterInput s with blk := Memory.write s.blk i.val v, resp := some (Response.okay 0#32) })
  /-- An accepted `START 64`. -/
  | begin (w : BitVec 40) (h : HostMoves w s) (hb : s.status.busy = false) (hd : decodeCommand w = .ok (.start 64#8))
      (ht : t = { beginCall (afterInput s) with resp := some (Response.okay 0#32) })
  /-- A `START` of another length. -/
  | badLength (w : BitVec 40) (h : HostMoves w s) (hb : s.status.busy = false) (len : BitVec 8) (hl : len ≠ 64#8)
      (hd : decodeCommand w = .ok (.start len))
      (ht : t = { raiseInvalidLength len (afterInput s) with resp := some (Response.okay 0#32) })
  /-- An accepted `CLEAR`. -/
  | clear (w : BitVec 40) (h : HostMoves w s) (hb : s.status.busy = false) (hd : decodeCommand w = .ok .clear)
      (ht : t = { acknowledge (afterInput s) with resp := some (Response.okay 0#32) })
  /-- The engine's turn while no call runs. -/
  | idle (h : EngineMoves s) (hb : s.status.busy = false) (ht : t = afterInput s)
  /-- `ROW k`. -/
  | row (h : EngineMoves s) (hb : s.status.busy = true) (k : Fin 8) (hk : s.seq = BitVec.ofNat 5 k.val)
      (x y : Vector Int 8) (hx : HoldsEight s (rowIndex k) x) (hy : bflyRow x = .ok y)
      (ht : t = { afterInput s with blk := writeEight s.blk (rowIndex k) y, seq := s.seq + 1#5 })
  /-- `COL k`. -/
  | col (h : EngineMoves s) (hb : s.status.busy = true) (k : Fin 8) (hk : s.seq = BitVec.ofNat 5 (8 + k.val))
      (x y : Vector Int 8) (hx : HoldsEight s (colIndex k) x) (hy : bflyCol x = .ok y)
      (ht : t = { afterInput s with blk := writeEight s.blk (colIndex k) y, seq := s.seq + 1#5 })
  /-- `END`. -/
  | complete (h : EngineMoves s) (hb : s.status.busy = true) (hk : s.seq = 16#5) (ht : t = completeCall (afterInput s))

/-- The seventeen micro-operations by the value of `seq`. -/
theorem decodeMicroOp_cases (u : BitVec 5) :
    (∃ k : Fin 8, u = BitVec.ofNat 5 k.val ∧ decodeMicroOp u = .ok (.row k)) ∨
    (∃ k : Fin 8, u = BitVec.ofNat 5 (8 + k.val) ∧ decodeMicroOp u = .ok (.col k)) ∨
    (u = 16#5 ∧ decodeMicroOp u = .ok .endCall) ∨ (17 ≤ u.toNat ∧ decodeMicroOp u = .error .reservedMicroOp) := by
  have h : ∀ n : Fin 32, (∃ k : Fin 8, BitVec.ofNat 5 n.val = BitVec.ofNat 5 k.val ∧
        decoded? (decodeMicroOp (BitVec.ofNat 5 n.val)) = some (.row k)) ∨
      (∃ k : Fin 8, BitVec.ofNat 5 n.val = BitVec.ofNat 5 (8 + k.val) ∧
        decoded? (decodeMicroOp (BitVec.ofNat 5 n.val)) = some (.col k)) ∨
      (BitVec.ofNat 5 n.val = 16#5 ∧ decoded? (decodeMicroOp (BitVec.ofNat 5 n.val)) = some .endCall) ∨
      (17 ≤ n.val ∧ decoded? (decodeMicroOp (BitVec.ofNat 5 n.val)) = none) := by decide
  have hd : ∀ {i}, decoded? (decodeMicroOp u) = some i → decodeMicroOp u = .ok i := by
    intro i hi; cases hm : decodeMicroOp u <;> simp_all [decoded?]
  have hu : BitVec.ofNat 5 u.toNat = u := by simp
  rcases h ⟨u.toNat, u.isLt⟩ with ⟨k, h1, h2⟩ | ⟨k, h1, h2⟩ | ⟨h1, h2⟩ | ⟨h1, h2⟩ <;> simp only [hu] at *
  · exact .inl ⟨k, h1, hd h2⟩
  · exact .inr (.inl ⟨k, h1, hd h2⟩)
  · exact .inr (.inr (.inl ⟨h1, hd h2⟩))
  · refine .inr (.inr (.inr ⟨h1, ?_⟩))
    unfold decodeMicroOp at *
    split_ifs at * <;> simp_all [decoded?]

theorem busy_afterInput {s : State} {b : Bool} (h : s.status.busy = b) : (afterInput s).status.busy = b := h

/-- The engine's part. -/
theorem engine_step_cases {s t : State} (hm : EngineMoves s) (h : step s = .next t) : StepCase s t := by
  unfold step at h
  rw [nextAction_engine hm] at h
  unfold engineAction at h
  rcases hb : s.status.busy with _ | _
  · rw [if_neg (by simp [hb])] at h
    injection h with h
    exact .idle hm hb h.symm
  · rw [if_pos (busy_afterInput hb)] at h
    simp only [afterInput_seq] at h
    rcases decodeMicroOp_cases s.seq with ⟨k, hk, hd⟩ | ⟨k, hk, hd⟩ | ⟨hk, hd⟩ | ⟨_, hd⟩ <;>
      simp only [hd, exec] at h
    · obtain ⟨x, y, hx, hy, ht⟩ := butterflyInPlace_next.1 h
      rcases readEight_cases (afterInput s) (rowIndex k) with ⟨x', hx', e⟩ | ⟨_, _, e⟩ <;> rw [e] at hx <;> cases hx
      exact .row hm hb k hk x y hx' hy ht
    · obtain ⟨x, y, hx, hy, ht⟩ := butterflyInPlace_next.1 h
      rcases readEight_cases (afterInput s) (colIndex k) with ⟨x', hx', e⟩ | ⟨_, _, e⟩ <;> rw [e] at hx <;> cases hx
      exact .col hm hb k hk x y hx' hy ht
    · injection h with h
      exact .complete hm hb hk h.symm
    · cases h

/-- A read command has `W` clear. -/
theorem fieldW_of_read {w : BitVec 40} {i : Instr} (hd : decodeCommand w = .ok i)
    (hi : (∃ k, i = .rdBlk k) ∨ i = .rdStatus ∨ ∃ k, i = .rdRom k) : fieldW w = false := by
  rcases decodeCommand_ok hd with ⟨-, ⟨_, _, rfl⟩ | h⟩ | ⟨h, -⟩
  · simp at hi
  · rcases decodeCtrl_ok h with rfl | rfl | rfl <;> simp at hi
  · exact h

/-- The host's part. -/
theorem host_step_cases {s t : State} {w : BitVec 40} (hm : HostMoves w s) (h : step s = .next t) : StepCase s t := by
  cases hd : decodeCommand w with
  | error e =>
    rw [step_illegal hm hd] at h
    injection h with h
    exact .respond w hm _ (fun _ => rfl) (fun _ => rfl) (fun _ he => by cases hd.symm.trans he) h.symm
  | ok i =>
    have he : step s = exec i (afterInput s) := by simp [step, nextAction_command hm, commandAction, hd]
    rw [he] at h
    have refuse : ∀ {u}, s.status.busy = true → respondError (afterInput s) = .next u → StepCase s u :=
      fun hb hu => by
        injection hu with hu
        exact .respond w hm _ (fun _ => rfl) (fun _ => rfl) (fun hn => by cases hb.symm.trans hn) hu.symm
    cases i with
    | wrBlk i v =>
      simp only [exec, execWrBlk] at h
      split at h
      · next hb => exact refuse hb h
      · next hb => injection h with h; exact .write w hm (by simpa using hb) i v hd h.symm
    | rdBlk i =>
      simp only [exec, execRdBlk] at h
      split at h
      · next hb => exact refuse hb h
      · split at h
        · injection h with h
          exact .respond w hm _ (fun hc => by cases hc)
            (fun hw => by rw [fieldW_of_read hd (.inl ⟨_, rfl⟩)] at hw; cases hw)
            (fun _ he => by cases hd.symm.trans he) h.symm
        · cases h
    | ctrlNop =>
      injection h with h
      exact .respond w hm _ (fun _ => rfl) (fun _ => rfl) (fun _ he => by cases hd.symm.trans he) h.symm
    | start len =>
      simp only [exec, execStart] at h
      split at h
      · next hb => exact refuse hb h
      · next hb =>
        split at h
        · next hl => subst hl; injection h with h; exact .begin w hm (by simpa using hb) hd h.symm
        · next hl => injection h with h; exact .badLength w hm (by simpa using hb) len hl hd h.symm
    | clear =>
      simp only [exec, execClear] at h
      split at h
      · next hb => exact refuse hb h
      · next hb => injection h with h; exact .clear w hm (by simpa using hb) hd h.symm
    | rdStatus =>
      injection h with h
      exact .respond w hm _ (fun hc => by cases hc)
        (fun hw => by rw [fieldW_of_read hd (.inr (.inl rfl))] at hw; cases hw)
        (fun _ he => by cases hd.symm.trans he) h.symm
    | rdRom k =>
      simp only [exec, execRdRom] at h
      split at h
      · injection h with h
        exact .respond w hm _ (fun hc => by cases hc)
          (fun hw => by rw [fieldW_of_read hd (.inr (.inr ⟨_, rfl⟩))] at hw; cases hw)
          (fun _ he => by cases hd.symm.trans he) h.symm
      · injection h with h
        exact .respond w hm _ (fun _ => rfl) (fun _ => rfl) (fun _ he => by cases hd.symm.trans he) h.symm
    | row r => exact absurd hd (decodeCommand_not_microOp w (.inl ⟨_, rfl⟩))
    | col c => exact absurd hd (decodeCommand_not_microOp w (.inr (.inl ⟨_, rfl⟩)))
    | endCall => exact absurd hd (decodeCommand_not_microOp w (.inr (.inr rfl)))

/-- A step that answers a next state has done one of the listed things. -/
theorem step_cases {s t : State} (h : step s = .next t) : StepCase s t := by
  rcases moves_cases s with hm | ⟨w, hm⟩ | hm
  · exact engine_step_cases hm h
  · exact host_step_cases hm h
  · rw [step_resetAll hm] at h
    injection h with h
    exact .reset hm h.symm

end Sys2Proof.Machine
end

