-- ==== Sys2Proof/Tests/Slice0.lean ====
section
/-! SUPPORT. Tests with expected results from spec/95_test_vectors.md (the vector is named in each comment), the smoke
test of WellFormed, and a witness for the hypotheses of every statement. -/

namespace Sys2Proof.Tests

open Sys2Proof Machine

/-! ### Helpers -/

/-- The next state of an outcome, if it has one. -/
def stateOf : Host.Outcome State Fault Refusal → Option State
  | .next s => some s
  | .fault _ => none
  | .refused _ => none

/-- The fault of an outcome, if it has one. -/
def faultOf : Host.Outcome State Fault Refusal → Option Fault
  | .next _ => none
  | .fault f => some f
  | .refused _ => none

/-- The refusal of an outcome, if it has one. -/
def refusalOf : Host.Outcome State Fault Refusal → Option Refusal
  | .next _ => none
  | .fault _ => none
  | .refused r => some r

/-- The value of a butterfly, if it has one. -/
def valueOf : Except Fault (Vector Int 8) → Option (Vector Int 8)
  | .ok y => some y
  | .error _ => none

/-- The fault of a butterfly, if it has one. -/
def errorOf : Except Fault (Vector Int 8) → Option Fault
  | .ok _ => none
  | .error f => some f

/-- The instruction a decoding gives, if it gives one. -/
def instrOf : Except DecodeError Instr → Option Instr := decoded?

/-- A state with the given entries and STATUS. -/
def small (blk : Memory) (st : Status) : State := { State.reset with blk := blk, status := st }

/-- Eight entries at the places of an addressing mode. -/
def eight (addr : Fin 8 → Fin 64) (x : Vector Int 8) : Memory := writeEight [] addr x

/-- 64 zero entries. -/
def zeros : Memory := (List.range 64).map fun i => (i, 0#32)

/-- The word `START 64`. -/
def startWord : BitVec 40 := 0xC000004001#40

/-! ### WellFormed -/

theorem test_wf_refuses_rom_index_13 : (Instr.rdRom 13).wellFormed = false := by decide

theorem test_wf_accepts_rom_index_12 : (Instr.rdRom 12).wellFormed = true := by decide

/-! ### Decoding: words written out from the spec's encodings (30 R53, R57; 95 sections 2 and 6) -/

/-- V0-2. -/
theorem test_decode_wr_blk : instrOf (decodeCommand 0x87000007FF#40) = some (.wrBlk 7 2047#32) := by decide

/-- V0-9, `DATA` ignored. -/
theorem test_decode_rd_blk : instrOf (decodeCommand 0x05DEADBEEF#40) = some (.rdBlk 5) := by decide

/-- V0-12, `LEN` ignored. -/
theorem test_decode_ctrl_nop : instrOf (decodeCommand 0xC00000FF00#40) = some .ctrlNop := by decide

/-- V0-17. -/
theorem test_decode_start : instrOf (decodeCommand 0xC000003F01#40) = some (.start 63#8) := by decide

/-- V0-22. -/
theorem test_decode_clear : instrOf (decodeCommand 0xC000000002#40) = some .clear := by decide

/-- V0-26. -/
theorem test_decode_rd_status : instrOf (decodeCommand 0x4100000000#40) = some .rdStatus := by decide

/-- V3-13. -/
theorem test_decode_rd_rom : instrOf (decodeCommand 0x5C00000000#40) = some (.rdRom 12) := by decide

/-- V0-28 to V0-37: every illegal word is rejected. -/
theorem test_decode_illegal :
    [0xC000000003#40, 0xC000004005#40, 0xC000014001#40, 0x4000000000#40, 0xC100000000#40, 0xD000000001#40,
      0x4200000000#40, 0x4F00000000#40, 0x5D00000000#40, 0xFF00000000#40].all
        fun w => instrOf (decodeCommand w) = none := by decide

/-- 30 R57: `0 0 111`. -/
theorem test_decode_row : instrOf (decodeMicroOp 0b00111#5) = some (.row 7) := by decide

/-- 30 R57: `0 1 001`. -/
theorem test_decode_col : instrOf (decodeMicroOp 0b01001#5) = some (.col 1) := by decide

/-- 30 R57: `1 0 000`. -/
theorem test_decode_end : instrOf (decodeMicroOp 0b10000#5) = some .endCall := by decide

/-- 30 R57: `1 0 001` is reserved. -/
theorem test_decode_reserved_micro_op : instrOf (decodeMicroOp 0b10001#5) = none := by decide

/-- The table's numbering: format U in a byte, format H in five. -/
theorem test_decode_table_word :
    decodeTableWord 8 0b10000 = some .endCall ∧ decodeTableWord 40 0xC000004001 = some (.start 64#8) ∧
      decodeTableWord 8 17 = none := by decide

/-- A word placed for the next step is fetched and run as the first instruction after reset. -/
theorem test_fetch_word_runs_start :
    (stateOf (step (State.reset.withFetchWord 40 0xC000004001))).map (·.status) = some Status.running := by decide

/-! ### Host commands -/

/-- V0-4: a write after completion leaves DONE. -/
theorem test_wr_blk :
    (stateOf (exec (.wrBlk 27 0x80000000#32) (small [] Status.completed))).map
      (fun t => (entry t 27, t.status.word, t.resp)) =
    some (some (-2147483648), 2#32, some (Response.okay 0#32)) := by decide

/-- V0-5: refused while BUSY. -/
theorem test_wr_blk_busy :
    (stateOf (exec (.wrBlk 0 1#32) (small [(0, 9#32)] Status.running))).map (fun t => (entry t 0, t.resp)) =
    some (some 9, some Response.error) := by decide

/-- V0-7: a negative entry. -/
theorem test_rd_blk :
    (stateOf (exec (.rdBlk 0) (small [(0, Word.ofInt (-66))] Status.completed))).map (·.resp) =
    some (some (Response.okay 0xFFFFFFBE#32)) := by decide

/-- V0-10: an entry never written. -/
theorem test_rd_blk_unwritten : faultOf (exec (.rdBlk 3) State.reset) = some (.uninitRead 3) := by decide

/-- V0-11. -/
theorem test_ctrl_nop :
    stateOf (exec .ctrlNop (small [] Status.running)) =
    some { small [] Status.running with resp := some (Response.okay 0#32) } := by decide

/-- V0-20: a second wrong length replaces the first. -/
theorem test_start_invalid :
    (stateOf (exec (.start 255#8) (small [] (Status.invalidLength 63#8)))).map (fun t => (t.status.word, t.resp)) =
    some (0x0000FF14#32, some (Response.okay 0#32)) := by decide

/-- V0-21: refused during a call before its length is looked at. -/
theorem test_start_busy :
    (stateOf (exec (.start 63#8) (small [] Status.running))).map (fun t => (t.status.word, t.resp)) =
    some (1#32, some Response.error) := by decide

/-- V0-23. -/
theorem test_clear :
    (stateOf (exec .clear (small [] (Status.invalidLength 63#8)))).map (fun t => t.status.word) = some 0#32 := by decide

/-- V0-27. -/
theorem test_rd_status :
    (stateOf (exec .rdStatus (small [] (Status.invalidLength 63#8)))).map (·.resp) =
    some (some (Response.okay 0x00003F14#32)) := by decide

/-- V3-9, during a call. -/
theorem test_rd_rom :
    (stateOf (exec (.rdRom 8) (small [] Status.running))).map (·.resp) =
    some (some (Response.okay 0x00000FB1#32)) := by decide

/-- V3-14. -/
theorem test_rd_rom_13 :
    (stateOf (step { State.reset with inputs := [.command 0x5D00000000#40] })).map (·.resp) =
    some (some Response.error) := by decide

/-! ### The butterfly -/

/-- V1-19: the general path of row mode. -/
theorem test_bfly_row :
    valueOf (bflyRow #v[-416, -33, -60, 32, 48, -40, 0, 0]) =
    some #v[-3888, -3909, -4103, -2967, -1667, -2802, -4034, -3255] := by decide

/-- V1-23: the first node that overflows. -/
theorem test_bfly_row_overflow : errorOf (bflyRow #v[0, 2047, 0, 0, 0, -2047, 0, 0]) = some (.overflow .q2) := by decide

/-- V1-3: the fast path, negative DC. -/
theorem test_bfly_row_fast :
    valueOf (bflyRow #v[-5, 0, 0, 0, 0, 0, 0, 0]) = some #v[-40, -40, -40, -40, -40, -40, -40, -40] := by decide

/-- V1-49: column mode. -/
theorem test_bfly_col :
    valueOf (bflyCol #v[-3888, -465, 99, 40, 144, 0, 0, 0]) = some #v[-66, -71, -70, -63, -58, -57, -53, -47] := by
  decide

/-- V1-56: `a0` overflows in column mode. -/
theorem test_bfly_col_overflow : errorOf (bflyCol #v[8388576, 0, 0, 0, 0, 0, 0, 0]) = some (.overflow .a0) := by decide

/-! ### Micro-operations -/

/-- V1-20 in place: row 1 of V2-10. -/
theorem test_row :
    (stateOf (exec (.row 1) (small (eight (rowIndex 1) #v[0, -24, -56, 19, 26, 0, 0, 0]) Status.running))).map
      (fun t => (t.blk, t.seq)) =
    some (eight (rowIndex 1) #v[-465, -718, -327, 621, 966, 396, -183, -290], 1#5) := by decide

/-- P6: the entry never written stops the row. -/
theorem test_row_unwritten :
    faultOf (exec (.row 7) (small [(56, 0#32), (57, 0#32), (58, 0#32), (59, 0#32), (60, 0#32), (61, 0#32), (62, 0#32)]
      Status.running)) = some (.uninitRead 63) := by decide

/-- V1-49 in place, column 0. -/
theorem test_col :
    (stateOf (exec (.col 0) (small (eight (colIndex 0) #v[-3888, -465, 99, 40, 144, 0, 0, 0]) Status.running))).map
      (fun t => (t.blk, t.seq)) =
    some (eight (colIndex 0) #v[-66, -71, -70, -63, -58, -57, -53, -47], 1#5) := by decide

/-- P5: `COL 2` of the block with entry (3,3) = 2130. -/
theorem test_col_overflow :
    faultOf (exec (.col 2) (small (eight (colIndex 2) #v[0, 0, 0, -23631, 0, 0, 0, 0]) Status.running)) =
    some (.overflow .q4) := by decide

/-- 41 R94's example. -/
theorem test_end :
    (stateOf (exec .endCall { small [] Status.running with seq := 16#5 })).map (fun t => (t.seq, t.status.word)) =
    some (0#5, 2#32) := by decide

/-! ### Steps -/

/-- 30 R57: a reserved word in the sequencer is refused. -/
theorem test_step_reserved :
    refusalOf (step { small [] Status.running with seq := 17#5 }) = some (.reservedMicroOp 17#5) := by decide

/-- 70 R191: reset abandons a call. -/
theorem test_step_reset :
    stateOf (step { small [(0, 1#32)] Status.running with seq := 4#5, inputs := [.reset] }) = some State.reset := by
  decide

/-- P4: a START during a call is refused and the call goes on. -/
theorem test_step_start_busy :
    (stateOf (step { small [] Status.running with seq := 4#5, inputs := [.command startWord] })).map
      (fun t => (t.seq, t.status.word, t.resp)) = some (4#5, 1#32, some Response.error) := by decide

/-! ### Assembler (30 R60) -/

/-- P3's command words. -/
theorem test_asm :
    (AsmLine.wr 0 (-416)).words = [0x80FFFFFE60#40] ∧ (AsmLine.start 63#8).words = [0xC000003F01#40] ∧
      (AsmLine.rdRom 12).words = [0x5C00000000#40] := by decide

/-- 40 R76, 70 R193: a poll behind the engine's last turn returns DONE, one in front of it BUSY. -/
theorem test_asm_turns :
    (stateOf (runSteps 2 { small [] Status.running with seq := 16#5, inputs := assemble [1] [.wait 1] })).map (·.resp) =
      some (some (Response.okay 2#32)) ∧
    (stateOf (runSteps 1 { small [] Status.running with seq := 16#5, inputs := assemble [] [.wait 1] })).map (·.resp) =
      some (some (Response.okay 1#32)) := by decide

/-! ### Witnesses: a concrete state and operands that meet the hypotheses of each statement, clause by clause -/

/-- The next move is the host's, with `START 64`, outside a call. -/
def hostState (st : Status) (w : BitVec 40) : State := { small zeros st with inputs := [.command w] }

theorem hostState_moves (st : Status) (w : BitVec 40) : HostMoves w (hostState st w) := ⟨[], rfl⟩

theorem zeros_defined (i : Fin 64) : (entry (small zeros Status.idle) i).isSome = true := by revert i; decide

theorem inv_of_zeros (st : Status) (h : StatusShape st) (l : List Input) :
    Inv { small zeros st with inputs := l } where
  canonical := by change Memory.wf zeros = true; decide
  shape := h
  idleSeq := fun _ => rfl
  seqRange := Nat.zero_le _
  rowsDefined := fun _ i hi => absurd hi (Nat.not_lt_zero _)
  doneDefined := fun _ => zeros_defined
  errorNoData := fun r hr => by cases hr

theorem witness_DecodeOfEncodeIsIdentity : (Instr.rdRom 12).wellFormed = true ∧ (Instr.row 7).wellFormed = true := by
  decide

theorem witness_decodes : decodeCommand 0x5C00000000#40 = .ok (.rdRom 12) := rfl

theorem witness_does_not_decode : decodeCommand 0x5D00000000#40 = .error .reservedAddr := rfl

theorem witness_MicroOpWordsDecode :
    17 ≤ (17#5).toNat ∧ 17 ≤ (31#5).toNat ∧
      EngineMoves { small [] Status.running with seq := 17#5 } ∧
      ({ small [] Status.running with seq := 17#5 } : State).status.busy = true ∧
      Sys2Proof.Inv (small zeros Status.idle) :=
  ⟨by decide, by decide, .inl rfl, rfl, inv_of_zeros _ (.inl rfl) []⟩

theorem witness_StepPerformsTheDecodedCommand :
    HostMoves startWord (hostState Status.idle startWord) ∧ decodeCommand startWord = .ok (.start 64#8) :=
  ⟨hostState_moves _ _, rfl⟩

theorem witness_StepPerformsTheSelectedMicroOp :
    ∃ s : State, EngineMoves s ∧ s.status.busy = true ∧ decodeMicroOp s.seq = .ok (.row 0) :=
  ⟨small zeros Status.running, .inl rfl, rfl, rfl⟩

theorem witness_PlacedWordRunsNext :
    decodeTableWord 40 0xC000004001 = some (.start 64#8) ∧ decodeTableWord 8 16 = some .endCall := by decide

theorem witness_EngineIdlesWhileNotBusy :
    (∃ s : State, Sys2Proof.Inv s ∧ EngineMoves s ∧ s.status.busy = false) ∧
    (∃ s t : State, ResetMoves s ∧ step s = .next t ∧ EngineMoves t) ∧
    ∃ s t : State, exec .endCall s = .next t ∧ EngineMoves t :=
  ⟨⟨small zeros Status.idle, inv_of_zeros _ (.inl rfl) [], .inl rfl, rfl⟩,
    ⟨{ small zeros Status.running with inputs := [.reset] }, _, ⟨[], rfl⟩, rfl, .inl rfl⟩,
    ⟨small zeros Status.running, _, rfl, .inl rfl⟩⟩

theorem witness_ResetClearsTheEngine :
    ResetMoves { small zeros Status.running with inputs := [.reset] } := ⟨[], rfl⟩

theorem witness_command_masks :
    0x87000007FF#40 &&& 0xC000000000#40 = 0x8000000000#40 ∧ 0x05DEADBEEF#40 &&& 0xC000000000#40 = 0x0000000000#40 ∧
    0xC00000FF00#40 &&& 0xFFFFFF00FF#40 = 0xC000000000#40 ∧ 0xC000004001#40 &&& 0xFFFFFF00FF#40 = 0xC000000001#40 ∧
    0xC000000002#40 &&& 0xFFFFFF00FF#40 = 0xC000000002#40 ∧ 0x4100000000#40 &&& 0xFF00000000#40 = 0x4100000000#40 ∧
    0x5C00000000#40 &&& 0xF000000000#40 = 0x5000000000#40 ∧ ((0x5C00000000#40).extractLsb' 32 4).toNat ≤ 12 := by
  decide

theorem witness_host_commands_by_status :
    (small zeros Status.running).status.busy = true ∧ (small zeros Status.idle).status.busy = false ∧
    entry (small zeros Status.idle) 63 = some 0 ∧ entry State.reset 63 = none ∧
    (63#8 : BitVec 8) ≠ 64#8 ∧ (65#8 : BitVec 8) ≠ 64#8 ∧ (13 : Fin 16).val ≥ 13 := by decide

/-- Each of the six causes, and a command with none. -/
theorem witness_BusRefusalsAreTheSixCauses :
    busCause 0x4200000000#40 false = some .reservedAddr ∧ busCause 0xFF00000000#40 false = some .reservedAddr ∧
    busCause 0x4000000000#40 false = some .writeOnly ∧ busCause 0xC100000000#40 false = some .readOnly ∧
    busCause 0xDC00000001#40 false = some .readOnly ∧ busCause 0xC000000003#40 true = some .badCtrl ∧
    busCause 0x3F00000000#40 true = some .busyAccess ∧ busCause startWord true = some .busyCommand ∧
    busCause 0xC000000000#40 true = none ∧ busCause startWord false = none ∧
    HostMoves startWord (hostState Status.running startWord) :=
  ⟨by decide, by decide, by decide, by decide, by decide, by decide, by decide, by decide, by decide, by decide,
    hostState_moves _ _⟩

theorem witness_host_step_answers :
    ∃ t, step (hostState Status.idle startWord) = .next t ∧ HostMoves startWord (hostState Status.idle startWord) :=
  ⟨_, rfl, hostState_moves _ _⟩

theorem witness_HostNeverDisturbsARunningCall :
    HostMoves startWord (hostState Status.running startWord) ∧ (hostState Status.running startWord).status.busy = true :=
  ⟨hostState_moves _ _, rfl⟩

/-- A row of the general path and a row of the fast path, in place and legal. -/
theorem witness_RowTransformsItsRow :
    (HoldsEight (small (eight (rowIndex 1) #v[0, -24, -56, 19, 26, 0, 0, 0]) Status.running) (rowIndex 1)
      #v[0, -24, -56, 19, 26, 0, 0, 0] ∧ RowLegal #v[0, -24, -56, 19, 26, 0, 0, 0]) ∧
    (HoldsEight (small (eight (rowIndex 0) #v[100, 0, 0, 0, 0, 0, 0, 0]) Status.running) (rowIndex 0)
      #v[100, 0, 0, 0, 0, 0, 0, 0] ∧ RowLegal #v[100, 0, 0, 0, 0, 0, 0, 0]) := by
  unfold HoldsEight RowLegal; decide

theorem witness_ColTransformsItsColumn :
    HoldsEight (small (eight (colIndex 0) #v[-3888, -465, 99, 40, 144, 0, 0, 0]) Status.running) (colIndex 0)
      #v[-3888, -465, 99, 40, 144, 0, 0, 0] ∧ ColLegal #v[-3888, -465, 99, 40, 144, 0, 0, 0] := by
  unfold HoldsEight ColLegal; decide

/-- No entry defined; the last alone undefined; a row and a column that overflow. -/
theorem witness_MicroOpFaultsComeInOrder :
    entry State.reset (rowIndex 0 0) = none ∧
    (entry (small [(56, 0#32), (57, 0#32), (58, 0#32), (59, 0#32), (60, 0#32), (61, 0#32), (62, 0#32)] Status.running)
      (rowIndex 7 7) = none ∧ ∀ l < (7 : Fin 8), entry (small [(56, 0#32), (57, 0#32), (58, 0#32), (59, 0#32),
        (60, 0#32), (61, 0#32), (62, 0#32)] Status.running) (rowIndex 7 l) ≠ none) ∧
    (entry State.reset (colIndex 0 0) = none) ∧
    HoldsEight (small (eight (rowIndex 0) #v[0, 2047, 0, 0, 0, -2047, 0, 0]) Status.running) (rowIndex 0)
      #v[0, 2047, 0, 0, 0, -2047, 0, 0] ∧ firstOverflow (rowChecks #v[0, 2047, 0, 0, 0, -2047, 0, 0]) = some .q2 ∧
    HoldsEight (small (eight (colIndex 2) #v[0, 0, 0, -23631, 0, 0, 0, 0]) Status.running) (colIndex 2)
      #v[0, 0, 0, -23631, 0, 0, 0, 0] ∧ firstOverflow (colChecks #v[0, 0, 0, -23631, 0, 0, 0, 0]) = some .q4 := by
  unfold HoldsEight; decide

/-- The ends of the node range, and the values next to them; the three shift counts. -/
theorem witness_DatapathPrimitivesAreExact :
    (-2147483648 : Int) ≤ -2147483648 ∧ (2147483647 : Int) ≤ 2147483647 ∧ (-2147483649 : Int) < -2147483648 ∧
      (2147483647 : Int) < 2147483648 ∧ 3 ∈ [3, 8, 14] ∧ 8 ∈ [3, 8, 14] ∧ 14 ∈ [3, 8, 14] := by decide

/-- 00 R13's examples. -/
theorem test_sar : [sar (-1) 8, sar (-256) 8, sar (-257) 8, sar 255 8, sar 4 3] = [-1, -1, -2, 0, 0] := by decide

theorem witness_EndCompletesTheCall :
    ∃ s : State, EngineMoves s ∧ s.status.busy = true ∧ s.seq = 16#5 :=
  ⟨{ small zeros Status.running with seq := 16#5 }, .inl rfl, rfl, rfl⟩

/-- A row or column whose AC entries are zero; the DC entry is free, so each range of the three statements is met, at
its ends as well. -/
theorem witness_AcZero (k : Int) : AcZero #v[k, 0, 0, 0, 0, 0, 0, 0] ∧ #v[k, 0, 0, 0, 0, 0, 0, 0][0] = k :=
  ⟨⟨rfl, rfl, rfl, rfl, rfl, rfl, rfl⟩, rfl⟩

theorem witness_EveryStepKeepsTheInvariant :
    ∃ s t, Inv s ∧ step s = .next t ∧ t.status = Status.running :=
  ⟨hostState Status.idle startWord, _, inv_of_zeros _ (.inl rfl) _, rfl, rfl⟩

theorem witness_ColumnsReadOnlyDefinedEntries :
    ∃ s : State, Inv s ∧ EngineMoves s ∧ s.status.busy = true ∧ 8 ≤ s.seq.toNat := by
  refine ⟨{ small zeros Status.running with seq := 8#5 }, ⟨?_, .inr (.inl rfl), ?_, by decide, fun _ i _ => zeros_defined i,
    fun _ => zeros_defined, ?_⟩, .inl rfl, rfl, by decide⟩
  · change Memory.wf zeros = true; decide
  · intro h; cases h
  · intro r hr; cases hr

theorem witness_NoReachableStateIsRefused : Inv (hostState Status.idle startWord) := inv_of_zeros _ (.inl rfl) _

theorem witness_DefinedEntriesStayDefined :
    ∃ t, step (hostState Status.idle 0x8000000001#40) = .next t ∧
      ¬ ResetMoves (hostState Status.idle 0x8000000001#40) ∧
      (entry (hostState Status.idle 0x8000000001#40) 0).isSome = true :=
  ⟨_, rfl, (fun ⟨_, h⟩ => by cases h), by decide⟩

/-- A reset, a command and three engine turns (idle, below END, END) that answer next states. -/
theorem witness_SeqChangesOnlyAsListed :
    (∃ t, ResetMoves { small zeros Status.running with inputs := [.reset] } ∧
      step { small zeros Status.running with inputs := [.reset] } = .next t) ∧
    (∃ t, HostMoves startWord (hostState Status.idle startWord) ∧ step (hostState Status.idle startWord) = .next t) ∧
    (∃ t, EngineMoves State.reset ∧ step State.reset = .next t) ∧
    (stateOf (step (small (eight (rowIndex 0) #v[100, 0, 0, 0, 0, 0, 0, 0]) Status.running))).isSome = true ∧
    (∃ t, step { small zeros Status.running with seq := 16#5 } = .next t) :=
  ⟨⟨_, ⟨[], rfl⟩, rfl⟩, ⟨_, hostState_moves _ _, rfl⟩, ⟨_, .inl rfl, rfl⟩, by decide, ⟨_, rfl⟩⟩

theorem witness_StatusChangesOnlyByItsWriters :
    ∃ t, step (hostState Status.idle startWord) = .next t ∧ t.status ≠ (hostState Status.idle startWord).status :=
  ⟨_, rfl, by decide⟩

theorem witness_EntriesChangeOnlyByTheirOwner :
    ∃ t, step (hostState Status.idle 0x8000000001#40) = .next t ∧
      Memory.read t.blk 0 ≠ Memory.read (hostState Status.idle 0x8000000001#40).blk 0 := ⟨_, rfl, by decide⟩

/-- The all-zero block. -/
def zeroBlock : Block := fun _ => 0

theorem zeroBlock_row (r : Fin 8) : zeroBlock.row r = #v[0, 0, 0, 0, 0, 0, 0, 0] := by revert r; decide

theorem rowPass_zeroBlock : rowPass zeroBlock = zeroBlock := by
  funext i
  rw [rowPass, zeroBlock_row]
  revert i; decide

theorem zeroBlock_col (c : Fin 8) : zeroBlock.col c = #v[0, 0, 0, 0, 0, 0, 0, 0] := by revert c; decide

theorem legal_zeroBlock : LegalBlock zeroBlock :=
  ⟨fun r => by rw [zeroBlock_row]; unfold RowLegal; decide,
    fun c => by rw [rowPass_zeroBlock, zeroBlock_col]; unfold ColLegal; decide⟩

theorem holds_zeros (st : Status) (l : List Input) : Holds { small zeros st with inputs := l } zeroBlock := by
  intro i
  change entry (small zeros Status.idle) i = some 0
  revert i; decide

theorem witness_RunningCallAdvancesToItsResult :
    LegalBlock zeroBlock ∧ CallRunning zeroBlock (small zeros Status.running) ∧
      EngineMoves (small zeros Status.running) ∧ ¬ ResetMoves (small zeros Status.running) ∧
      CallRunning zeroBlock (hostState Status.running startWord) := by
  have hm : midCall zeroBlock 0 = zeroBlock := by funext i; simp [midCall]
  refine ⟨legal_zeroBlock, ⟨rfl, by decide, ?_⟩, .inl rfl, (fun ⟨_, h⟩ => by cases h), ⟨rfl, by decide, ?_⟩⟩
  · change Holds _ (midCall zeroBlock 0)
    rw [hm]; exact holds_zeros Status.running []
  · change Holds _ (midCall zeroBlock 0)
    rw [hm]; exact holds_zeros Status.running [.command startWord]

theorem witness_CallComputesIdct :
    LegalBlock zeroBlock ∧ Holds (hostState Status.idle startWord) zeroBlock ∧
      (hostState Status.idle startWord).status.busy = false ∧
      (hostState Status.idle startWord).inputs = [.command 0xC000004001#40] :=
  ⟨legal_zeroBlock, holds_zeros _ _, rfl, rfl⟩

/-- A block whose first row overflows on the fast path. -/
def illegalBlock : Block := fun i => if i = 0 then 268435456 else 0

/-- The entries of that block. -/
def illegalEntries : Memory := Memory.write zeros 0 268435456#32

theorem witness_IllegalBlockEndsInOverflow :
    ¬ LegalBlock illegalBlock ∧
      Holds { small illegalEntries Status.idle with inputs := [.command startWord] } illegalBlock := by
  refine ⟨fun h => ?_, fun i => ?_⟩
  · have h0 := h.1 0
    revert h0; unfold RowLegal; decide
  · change entry (small illegalEntries Status.idle) i = some (illegalBlock i)
    revert i; decide

theorem witness_UnwrittenEntryStopsTheCall :
    ∃ s : State, entry s 63 = none ∧ s.status.busy = false ∧
      s.inputs = [.command 0xC000004001#40, .command 0x4100000000#40, .engineTurn] ∧
      Input.reset ∉ [Input.command 0x4100000000#40, .engineTurn] :=
  ⟨{ State.reset with inputs := [.command startWord, .command 0x4100000000#40, .engineTurn] }, rfl, rfl, rfl, by decide⟩

/-- Two states with one block that differ in STATUS and in what is pending, 16 engine turns and a poll among it. -/
theorem witness_CallDependsOnlyOnTheBlock :
    ∃ (s s' : State) (l : List Input), s.blk = s'.blk ∧ s.status ≠ s'.status ∧ s.status.busy = false ∧ s'.status.busy = false ∧
      s.inputs = .command 0xC000004001#40 :: l ∧ s'.inputs = [.command 0xC000004001#40] ∧
      Input.reset ∉ l ∧ l.count Input.engineTurn ≤ 16 ∧ l.length = 17 :=
  ⟨{ small zeros Status.completed with
      inputs := .command startWord :: .command 0x4100000000#40 :: List.replicate 16 .engineTurn },
    hostState Status.idle startWord, .command 0x4100000000#40 :: List.replicate 16 .engineTurn, rfl, by decide, rfl, rfl,
    rfl, rfl, by decide, by decide, by decide⟩

theorem witness_CallTakesSeventeenEngineSteps :
    ∃ s : State, Inv s ∧ s.status.busy = true ∧ s.inputs = [] :=
  ⟨small zeros Status.running, inv_of_zeros _ (.inr (.inl rfl)) [], rfl, rfl⟩

/-- Rows 0 and 1, and columns 0 and 1, of the all-zero block. -/
theorem witness_ButterfliesOfOnePassCommute :
    (0 : Fin 8) ≠ 1 ∧ Memory.wf zeros = true ∧
      ((stateOf (exec (.row 0) (small zeros Status.running))).bind fun t => stateOf (exec (.row 1) t)).isSome = true ∧
      ((stateOf (exec (.col 0) (small zeros Status.running))).bind fun t => stateOf (exec (.col 1) t)).isSome = true := by
  decide

/-- A step that answers, one that faults, one that is refused; two instances. -/
theorem witness_FleetInstancesAreIndependent :
    (∃ t, step (hostState Status.idle startWord) = .next t) ∧
    step (small [] Status.running) = .fault (.uninitRead 0) ∧
    step { small [] Status.running with seq := 17#5 } = .refused (.reservedMicroOp 17#5) ∧ (0 : Nat) ≠ 1 :=
  ⟨⟨_, rfl⟩, rfl, rfl, by decide⟩

/-- 60 R174: an instance that faults stops itself alone. -/
theorem test_fleet_fault :
    fleetRun [0, 1, 0] [.running (small [] Status.running), .running State.reset] =
      [.faulted (.uninitRead 0), .running State.reset] := by decide

/-- The ends of the DC range. -/
theorem witness_DcOnlyBlockIsUniform (k : Int) :
    ∃ B : Block, B = (fun i => if i = 0 then k else 0) := ⟨_, rfl⟩

/-- The two ends of the box, by sign of the row (95 V2-14). -/
theorem witness_BoxOf151IsLegal :
    ∃ B : Block, (∀ i, -151 ≤ B i ∧ B i ≤ 151) ∧ B 0 = 151 ∧ B 63 = -151 :=
  ⟨fun i => if i.val < 24 then 151 else -151, by decide, by decide, by decide⟩

theorem witness_SingleCoefficientIsLegal :
    ∃ (B : Block) (p : Fin 64), (∀ i, i ≠ p → B i = 0) ∧ -2128 ≤ B p ∧ B p = 2128 :=
  ⟨fun i => if i = 27 then 2128 else 0, 27, fun i h => if_neg h, by decide, by decide⟩

/-- A block whose weighted sum is exactly 1. -/
theorem witness_WeightedSumIsLegal : weightedSum (singleBlock 0 1048571) = 1 := by
  rw [weightedSum, Finset.sum_eq_single 0 (fun i _ h => by simp [singleBlock, h]) (fun h => absurd (Finset.mem_univ _) h)]
  norm_num [singleBlock, weightLimit, weightRow, rowOf, colOf]

theorem witness_SingleCoefficientBoundsAreTight :
    (-3483 : Int) ≤ -3483 ∧ (3483 : Int) ≤ 3483 ∧ (-2130 : Int) < -2129 ∧ (2129 : Int) < 2130 := by decide

end Sys2Proof.Tests
end

section
/-! SUPPORT. The format U words (30 R57) and the responses of the host port (30 R52): the rules, then the statements they
settle. -/

namespace Sys2Proof.Machine

open Sys2Proof

/-! ### Format U words -/

/-- `00rrr` (30 R57): `E` and `P` are clear and `IDX` is the row. -/
theorem decodeMicroOp_zero_append (r : Fin 8) :
    decodeMicroOp (0#2 ++ BitVec.ofFin (w := 3) r) = .ok (.row r) := by
  match r with
  | 0 | 1 | 2 | 3 | 4 | 5 | 6 | 7 => rfl

/-- `01ccc` (30 R57): `E` is clear, `P` set and `IDX` is the column. -/
theorem decodeMicroOp_one_append (c : Fin 8) :
    decodeMicroOp (1#2 ++ BitVec.ofFin (w := 3) c) = .ok (.col c) := by
  match c with
  | 0 | 1 | 2 | 3 | 4 | 5 | 6 | 7 => rfl

/-- The seventeen words that decode are 0 to 16, so every other word is reserved. -/
theorem decodeMicroOp_reserved {u : BitVec 5} (hu : 17 ≤ u.toNat) : decodeMicroOp u = .error .reservedMicroOp := by
  rcases decodeMicroOp_cases u with ⟨k, rfl, -⟩ | ⟨k, rfl, -⟩ | ⟨rfl, -⟩ | ⟨-, hd⟩
  · rw [BitVec.toNat_ofNat] at hu; omega
  · rw [BitVec.toNat_ofNat] at hu; omega
  · exact absurd hu (by decide)
  · exact hd

/-- A running call whose sequencer holds a reserved word is refused by name, not guessed (30 R57). -/
theorem step_reservedMicroOp {s : State} (hm : EngineMoves s) (hb : s.status.busy = true) (hu : 17 ≤ s.seq.toNat) :
    step s = .refused (.reservedMicroOp s.seq) := by
  simp [step, nextAction_engine hm, engineAction, hb, decodeMicroOp_reserved hu]

/-- Settles O4: the rows and columns by the fields of the word, the reserved words by `decodeMicroOp_reserved`, and the
invariant's range of `seq` excludes them. -/
theorem microOpWordsDecode : Obligations.MicroOpWordsDecode := by
  refine ⟨decodeMicroOp_zero_append, decodeMicroOp_one_append, rfl, fun u hu => ⟨decodeMicroOp_reserved hu, ?_, ?_⟩⟩
  · rintro s hinv rfl
    have hle := hinv.seqRange
    omega
  · rintro s hm hb rfl
    exact step_reservedMicroOp hm hb hu

/-! ### Responses -/

/-- Bit 32 of the response word is ERR (30 R52). -/
theorem Response.getLsbD_word (r : Response) : r.word.getLsbD 32 = r.err :=
  BitVec.getLsbD_append.trans (by simp)

/-- Bits 31:0 of the response word are RDATA (30 R52). -/
theorem Response.extractLsb_word (r : Response) : r.word.extractLsb' 0 32 = r.rdata :=
  BitVec.extractLsb'_append_eq_right

/-- The host offers one command word at a time. -/
theorem hostMoves_word_unique {s : State} {w w' : BitVec 40} (h : HostMoves w s) (h' : HostMoves w' s) : w = w' := by
  obtain ⟨rest, h⟩ := h
  obtain ⟨rest', h'⟩ := h'
  rw [h] at h'
  cases h'
  rfl

theorem not_engineMoves_of_hostMoves {s : State} {w : BitVec 40} (h : HostMoves w s) : ¬ EngineMoves s := by
  obtain ⟨rest, h⟩ := h
  simp [EngineMoves, h]

theorem not_resetMoves_of_hostMoves {s : State} {w : BitVec 40} (h : HostMoves w s) : ¬ ResetMoves s := by
  obtain ⟨rest, h⟩ := h
  simp [ResetMoves, h]

/-- A host command that answers a next state either changes the response alone, with no data in an ERROR or for a write,
or is a write whose change stands and whose answer is `OKAY(0)`. -/
theorem host_step_response {s t : State} {w : BitVec 40} (hm : HostMoves w s) (h : step s = .next t) :
    (∃ r, t = { afterInput s with resp := some r } ∧ (r.err = true → r.rdata = 0#32) ∧
      (fieldW w = true → r.rdata = 0#32)) ∨
    t.resp = some (Response.okay 0#32) := by
  cases host_step_cases hm h with
  | respond w' hm' r hr hw _ ht =>
    obtain rfl := hostMoves_word_unique hm hm'
    exact .inl ⟨r, ht, hr, hw⟩
  | write _ _ _ _ _ _ ht => subst ht; exact .inr rfl
  | begin _ _ _ _ ht => subst ht; exact .inr rfl
  | badLength _ _ _ _ _ _ ht => subst ht; exact .inr rfl
  | clear _ _ _ _ ht => subst ht; exact .inr rfl
  | reset hr _ => exact absurd hr (not_resetMoves_of_hostMoves hm)
  | idle he _ _ => exact absurd he (not_engineMoves_of_hostMoves hm)
  | row he _ _ _ _ _ _ _ _ => exact absurd he (not_engineMoves_of_hostMoves hm)
  | col he _ _ _ _ _ _ _ _ => exact absurd he (not_engineMoves_of_hostMoves hm)
  | complete he _ _ _ => exact absurd he (not_engineMoves_of_hostMoves hm)

/-- Settles O23: the layout is the response word's, and the data and the frame are read off the two ways a host command
answers (`host_step_response`). -/
theorem responsesCarryDataOnlyOnOkayReads : Obligations.ResponsesCarryDataOnlyOnOkayReads := by
  intro w s t hm h
  rcases host_step_response hm h with ⟨r, rfl, hr, hw⟩ | hokay
  · exact ⟨r, rfl, r.getLsbD_word, r.extractLsb_word, fun he => ⟨hr he, rfl⟩, hw⟩
  · exact ⟨_, hokay, Response.getLsbD_word _, Response.extractLsb_word _, (nomatch ·), fun _ => rfl⟩

end Sys2Proof.Machine
end

section
/-! SUPPORT. The host commands (spec 40_host_interface_ops.md): the words of the commands by mask and match (30 R53),
each command's meaning once for a running call and once without one, then the statements they settle. -/

namespace Sys2Proof

/-! ### A masked command word

Each mask of 30 R53 keeps a field whole or leaves it out, so the fields of the masked word tell those of the word. -/

theorem fieldW_and (w m : BitVec 40) : fieldW (w &&& m) = (fieldW w && fieldW m) := BitVec.getLsbD_and

theorem fieldAddr_and (w m : BitVec 40) : fieldAddr (w &&& m) = fieldAddr w &&& fieldAddr m := BitVec.extractLsb'_and

theorem fieldData_and (w m : BitVec 40) : fieldData (w &&& m) = fieldData w &&& fieldData m := BitVec.extractLsb'_and

/-- The block index is bits 37:32 of the word (30 R51, R54). -/
theorem fieldBlockIndex_fieldAddr (w : BitVec 40) :
    (fieldBlockIndex (fieldAddr w)).val = (w.extractLsb' 32 6).toNat := by
  simp only [fieldBlockIndex, fieldAddr]
  congr 1
  ext k hk
  simp [show k < 7 by omega]

/-- `LEN` is bits 15:8 of the word (30 R51, R55). -/
theorem fieldLen_fieldData (w : BitVec 40) : fieldLen (fieldData w) = w.extractLsb' 8 8 := by
  ext k hk
  simp [fieldLen, fieldData]

/-- The mask of WR_BLK and RD_BLK keeps `W` and the top address bit (30 R53). -/
theorem blkFields_of_and_mask {w p : BitVec 40} (h : w &&& 0xC000000000#40 = p) (hp : fieldAddr p = 0#7) :
    fieldW w = fieldW p ∧ fieldAddr w < Config.ctrlAddr := by
  subst h
  rw [fieldAddr_and] at hp
  rw [fieldW_and]
  refine ⟨(Bool.and_true _).symm, ?_⟩
  revert hp
  generalize fieldAddr w = addr
  revert addr
  decide

/-- The mask of the CTRL commands keeps everything but `LEN` (30 R53, R55). -/
theorem ctrlFields_of_and_mask {w p : BitVec 40} (h : w &&& 0xFFFFFF00FF#40 = p) :
    fieldW w = fieldW p ∧ fieldAddr w = fieldAddr p ∧
      ctrlReservedZero (fieldData w) = ctrlReservedZero (fieldData p) ∧
      fieldCmd (fieldData w) = fieldCmd (fieldData p) := by
  subst h
  have haddr : fieldAddr 0xFFFFFF00FF#40 = BitVec.allOnes 7 := by decide
  have hhigh : (fieldData 0xFFFFFF00FF#40).extractLsb' 16 16 = BitVec.allOnes 16 := by decide
  have hlow : (fieldData 0xFFFFFF00FF#40).extractLsb' 2 6 = BitVec.allOnes 6 := by decide
  have hcmd : (fieldData 0xFFFFFF00FF#40).extractLsb' 0 2 = BitVec.allOnes 2 := by decide
  refine ⟨?_, ?_, ?_, ?_⟩
  · rw [fieldW_and]; exact (Bool.and_true _).symm
  · rw [fieldAddr_and, haddr, BitVec.and_allOnes]
  · simp only [ctrlReservedZero, fieldData_and, BitVec.extractLsb'_and, hhigh, hlow, BitVec.and_allOnes]
  · simp only [fieldCmd, fieldData_and, BitVec.extractLsb'_and, hcmd, BitVec.and_allOnes]

/-! ### The commands' words -/

theorem decodeCommand_write_blk {w : BitVec 40} (hw : fieldW w = true) (ha : fieldAddr w < Config.ctrlAddr) :
    decodeCommand w = .ok (.wrBlk (fieldBlockIndex (fieldAddr w)) (fieldData w)) := by
  simp [decodeCommand, hw, ha]

theorem decodeCommand_read_blk {w : BitVec 40} (hw : fieldW w = false) (ha : fieldAddr w < Config.ctrlAddr) :
    decodeCommand w = .ok (.rdBlk (fieldBlockIndex (fieldAddr w))) := by
  simp [decodeCommand, hw, ha]

theorem decodeCommand_write_ctrl {w : BitVec 40} (hw : fieldW w = true) (ha : fieldAddr w = Config.ctrlAddr) :
    decodeCommand w = decodeCtrl (fieldData w) := by
  simp [decodeCommand, hw, ha]

/-- A word that matches a pattern under the mask of the CTRL commands decodes by the pattern's `CMD` and its own
`LEN`. -/
theorem decodeCommand_of_and_ctrlMask {w p : BitVec 40} (h : w &&& 0xFFFFFF00FF#40 = p) (hw : fieldW p = true)
    (ha : fieldAddr p = Config.ctrlAddr) (hr : ctrlReservedZero (fieldData p) = true) :
    decodeCommand w =
      if fieldCmd (fieldData p) = 0#2 then .ok .ctrlNop
      else if fieldCmd (fieldData p) = 1#2 then .ok (.start (fieldLen (fieldData w)))
      else if fieldCmd (fieldData p) = 2#2 then .ok .clear
      else .error .badCtrl := by
  obtain ⟨hw', ha', hr', hc'⟩ := ctrlFields_of_and_mask h
  rw [decodeCommand_write_ctrl (hw'.trans hw) (ha'.trans ha), decodeCtrl, if_pos (hr'.trans hr), hc']

end Sys2Proof

namespace Sys2Proof.Machine

open Sys2Proof

/-! ### The commands' meanings -/

section
variable {s : State}

/-! The four commands that need the block or the engine are refused during a call, with no other effect (40 R78). -/

theorem exec_wrBlk_busy (i : Fin 64) (v : Word) (hb : s.status.busy = true) :
    exec (.wrBlk i v) s = .next { s with resp := some Response.error } := if_pos hb

theorem exec_rdBlk_busy (i : Fin 64) (hb : s.status.busy = true) :
    exec (.rdBlk i) s = .next { s with resp := some Response.error } := if_pos hb

theorem exec_start_busy (len : BitVec 8) (hb : s.status.busy = true) :
    exec (.start len) s = .next { s with resp := some Response.error } := if_pos hb

theorem exec_clear_busy (hb : s.status.busy = true) :
    exec .clear s = .next { s with resp := some Response.error } := if_pos hb

/-! Without a call running each of them is performed. -/

theorem exec_wrBlk_free (i : Fin 64) (v : Word) (hb : s.status.busy = false) :
    exec (.wrBlk i v) s = respondOkay 0#32 { s with blk := Memory.write s.blk i.val v } :=
  if_neg (by simp [hb])

/-- Without a call running a read of a defined entry answers its word. -/
theorem exec_rdBlk_free_of_some {i : Fin 64} {w : Word} (hb : s.status.busy = false)
    (hr : Memory.read s.blk i.val = some w) : exec (.rdBlk i) s = respondOkay w s := by
  simp [exec, execRdBlk, hb, hr]

/-- Without a call running a read of an entry without a value is the model fault (60 R167). -/
theorem exec_rdBlk_free_of_none {i : Fin 64} (hb : s.status.busy = false) (hr : Memory.read s.blk i.val = none) :
    exec (.rdBlk i) s = .fault (.uninitRead i) := by
  simp [exec, execRdBlk, hb, hr]

theorem exec_start_free_legal (hb : s.status.busy = false) :
    exec (.start 64#8) s = respondOkay 0#32 (beginCall s) :=
  (if_neg (by simp [hb])).trans (if_pos rfl)

theorem exec_start_free_illegal {len : BitVec 8} (hb : s.status.busy = false) (hl : len ≠ 64#8) :
    exec (.start len) s = respondOkay 0#32 (raiseInvalidLength len s) :=
  (if_neg (by simp [hb])).trans (if_neg hl)

theorem exec_clear_free (hb : s.status.busy = false) : exec .clear s = respondOkay 0#32 (acknowledge s) :=
  if_neg (by simp [hb])

/-- A read of the ROM window answers in every state and changes the response alone. -/
theorem exec_rdRom_responds (k : Fin 16) (s : State) : ∃ r, exec (.rdRom k) s = .next { s with resp := some r } := by
  simp only [exec, execRdRom]
  cases romIndex k with
  | none => exact ⟨_, rfl⟩
  | some k => exact ⟨_, rfl⟩

end

/-- Concatenation as a sum: the upper part weighs the lower part's width. -/
theorem toNat_append_eq_add {m n : Nat} (x : BitVec m) (y : BitVec n) :
    (x ++ y).toNat = x.toNat * 2 ^ n + y.toNat := by
  rw [BitVec.toNat_append, ← Nat.shiftLeft_add_eq_or_of_lt y.isLt, Nat.shiftLeft_eq]

/-- ELEN stands above ECODE 1 and ERR: the word of shape ERROR (10 R25). -/
theorem toNat_word_invalidLength (len : BitVec 8) : (Status.invalidLength len).word.toNat = 0x14 + 256 * len.toNat := by
  simp only [Status.word, Status.invalidLength, toNat_append_eq_add, BitVec.toNat_ofNat, BitVec.toNat_ofBool,
    Bool.toNat_true, Bool.toNat_false]
  omega

/-! ### A host command during a call -/

/-- During a call whatever a command word decodes to changes the response alone. -/
theorem exec_decoded_busy {w : BitVec 40} {i : Instr} {s : State} (hd : decodeCommand w = .ok i)
    (hb : s.status.busy = true) : ∃ r, exec i s = .next { s with resp := some r } := by
  rcases decodeCommand_ok hd with ⟨-, ⟨k, v, rfl⟩ | hc⟩ | ⟨-, ⟨k, rfl⟩ | rfl | ⟨k, rfl⟩⟩
  · exact ⟨_, exec_wrBlk_busy k v hb⟩
  · rcases decodeCtrl_ok hc with rfl | rfl | rfl
    · exact ⟨_, rfl⟩
    · exact ⟨_, exec_clear_busy hb⟩
    · exact ⟨_, exec_start_busy _ hb⟩
  · exact ⟨_, exec_rdBlk_busy k hb⟩
  · exact ⟨_, rfl⟩
  · exact exec_rdRom_responds k s

theorem step_of_decodeCommand {w : BitVec 40} {i : Instr} {s : State} (hm : HostMoves w s)
    (hd : decodeCommand w = .ok i) : step s = exec i (afterInput s) := by
  simp [step, nextAction_command hm, commandAction, hd]

/-- During a call a host command, legal or not, is answered and changes the response alone (40 R72). -/
theorem host_step_busy {w : BitVec 40} {s : State} (hm : HostMoves w s) (hb : s.status.busy = true) :
    ∃ r, step s = .next { afterInput s with resp := some r } := by
  cases hd : decodeCommand w with
  | error e => exact ⟨_, step_illegal hm hd⟩
  | ok i => rw [step_of_decodeCommand hm hd]; exact exec_decoded_busy hd (busy_afterInput hb)

/-- Settles O24: the response, which is all that changes (`host_step_busy`), is none of the fields named. -/
theorem hostNeverDisturbsARunningCall : Obligations.HostNeverDisturbsARunningCall := by
  intro w s hm hb
  obtain ⟨r, hs⟩ := host_step_busy hm hb
  exact ⟨_, hs, rfl, rfl, rfl, rfl⟩

/-! ### The statements of the commands -/

/-- Settles O14: the words by `W` and the top address bit, the write by the laws of the buffer. -/
theorem wrBlkWritesOneEntry : Obligations.WrBlkWritesOneEntry := by
  refine ⟨fun w h => ?_, fun i v s => ⟨exec_wrBlk_busy i v, fun hb => ?_⟩⟩
  · obtain ⟨hw, ha⟩ := blkFields_of_and_mask h rfl
    exact ⟨_, _, decodeCommand_write_blk hw ha, fieldBlockIndex_fieldAddr w, rfl⟩
  · have hr := read_write_same s.blk i.val v
    exact ⟨_, exec_wrBlk_free i v hb, entry_eq_some.2 ⟨v, hr, rfl⟩, hr, fun _ hn => read_write_other _ _ hn,
      rfl, rfl, rfl, rfl⟩

/-- Settles O15: the words by `W` and the top address bit; a word is the two's complement of its signed value. -/
theorem rdBlkReturnsTheEntry : Obligations.RdBlkReturnsTheEntry := by
  refine ⟨fun w h => ?_, fun i s => ⟨exec_rdBlk_busy i, fun hb hn => ?_, fun hb v hv => ?_⟩⟩
  · obtain ⟨hw, ha⟩ := blkFields_of_and_mask h rfl
    exact ⟨_, decodeCommand_read_blk hw ha, fieldBlockIndex_fieldAddr w⟩
  · exact exec_rdBlk_free_of_none hb (Option.map_eq_none_iff.1 hn)
  · obtain ⟨w, hr, rfl⟩ := entry_eq_some.1 hv
    rw [exec_rdBlk_free_of_some hb hr, respondOkay_eq, Word.ofInt, BitVec.ofInt_toInt]

/-- Settles O16: `CMD` is 0 whatever `LEN` is, and the meaning does not look at the state. -/
theorem ctrlNopAnswersOkay : Obligations.CtrlNopAnswersOkay :=
  ⟨fun _ h => decodeCommand_of_and_ctrlMask h rfl rfl rfl, fun s => respondOkay_eq 0#32 s⟩

/-- Settles O17: the words by `CMD`, then the three cases of `START`: during a call, another length, and 64. -/
theorem startBeginsACallOrRecordsTheLength : Obligations.StartBeginsACallOrRecordsTheLength := by
  refine ⟨fun w h => ?_, fun len s => ⟨exec_start_busy len, fun hb hl => ?_, fun hb hl => ?_⟩⟩
  · rw [← fieldLen_fieldData]
    exact decodeCommand_of_and_ctrlMask h rfl rfl rfl
  · exact ⟨_, exec_start_free_illegal hb hl, rfl, toNat_word_invalidLength len, rfl, rfl, rfl, rfl⟩
  · subst hl
    exact ⟨_, exec_start_free_legal hb, rfl, running_word, rfl, rfl, rfl, rfl⟩

/-- Settles O18: the words by `CMD`, and without a call STATUS becomes the shape IDLE, whose word is 0. -/
theorem clearAcknowledges : Obligations.ClearAcknowledges := by
  refine ⟨fun _ h => decodeCommand_of_and_ctrlMask h rfl rfl rfl, fun s => ⟨exec_clear_busy, fun hb => ?_⟩⟩
  exact ⟨_, exec_clear_free hb, rfl, idle_word, rfl, rfl, rfl, rfl⟩

end Sys2Proof.Machine
end

section
/-! SUPPORT. The sequencer (spec 41_sequencer_microops.md): the engine's step by the word in `seq` (R90), no step without
a running call, and the end of a call (R94). -/

namespace Sys2Proof.Machine

open Sys2Proof

/-- During a call the engine's step is the micro-operation whose word equals `seq` (41 R90). -/
theorem step_of_decodeMicroOp {i : Instr} {s : State} (hm : EngineMoves s) (hb : s.status.busy = true)
    (hd : decodeMicroOp s.seq = .ok i) : step s = exec i (afterInput s) := by
  simp [step, nextAction_engine hm, engineAction, hb, hd]

/-- Without a running call the engine's turn is idle, whatever `seq` holds (41 R90). -/
theorem engineAction_of_not_busy {s : State} (hb : s.status.busy = false) : engineAction s = .idle s :=
  if_neg (by simp [hb])

/-- Without a running call the engine has no step (41 R90). -/
theorem not_engineEnabled_of_not_busy {s : State} (hb : s.status.busy = false) : ¬ EngineEnabled s := by
  rintro ⟨i, hi⟩
  rw [engineAction_of_not_busy hb] at hi
  cases hi

/-- END completes the call in every state: it reads nothing, so it cannot fault (41 R94). -/
theorem exec_endCall (s : State) : exec .endCall s = .next (completeCall s) := rfl

/-- Settles O27: the word 16 decodes to END and selects it, and the completed call is not BUSY, so no step follows. -/
theorem endCompletesTheCall : Obligations.EndCompletesTheCall := by
  have hword : decodeMicroOp 16#5 = .ok .endCall := rfl
  refine ⟨hword, fun s hm hb hseq => step_of_decodeMicroOp hm hb (hseq ▸ hword), fun s => ?_⟩
  exact ⟨_, exec_endCall s, completeCall_status s, completed_word, completeCall_seq s, completeCall_blk s,
    completeCall_resp s, completeCall_inputs s, not_engineEnabled_of_not_busy completed_busy⟩

end Sys2Proof.Machine
end

section
/-! SUPPORT. The fast path of row mode (spec 42_butterfly_row_pass.md R110, R111): the one checked node in front of its
result, the exact range in which that node fits, and the statement they settle. -/

namespace Sys2Proof.Machine

open Sys2Proof

/-- Seven zero AC entries select the fast path (42 R110). -/
theorem bflyRow_of_acZero {x : Vector Int 8} (hx : AcZero x) : bflyRow x = rowFast x := if_pos hx

/-- The fast path is its one checked node, then the exact result (42 R111). -/
theorem rowFast_eq (x : Vector Int 8) : rowFast x = guardAll (fastChecks x[0]) (.ok (fastExact x[0])) :=
  chk_guard (Int.mul_comm _ _) rfl

/-- The node `f0` fits in exactly the range of DC entries 42 R111 gives. -/
theorem fits_eight_mul_iff {k : Int} : Fits (8 * k) ↔ -268435456 ≤ k ∧ k ≤ 268435455 := by omega

/-- A row without AC entries gives eight times its DC entry, or the fault at `f0` (42 R110, R111). -/
theorem bflyRow_eq_of_acZero {x : Vector Int 8} {k : Int} (hx : AcZero x) (hk : x[0] = k) :
    bflyRow x = if Fits (8 * k) then .ok (Vector.replicate 8 (8 * k)) else .error (.overflow .f0) := by
  rw [bflyRow_of_acZero hx, rowFast_eq, hk, fastChecks, guardAll_cons, guardAll_nil, fastExact]

/-- Settles O32: the row is decided by the node `f0` alone, and the two clauses are the DC entries for which it fits and
those for which it does not. -/
theorem fastPathShiftsTheDcEntry : Obligations.FastPathShiftsTheDcEntry := by
  intro x k hx hk
  rw [bflyRow_eq_of_acZero hx hk]
  refine ⟨fun hlo hhi => if_pos (fits_eight_mul_iff.2 ⟨hlo, hhi⟩), fun hout => if_neg fun hfit => ?_⟩
  obtain ⟨hlo, hhi⟩ := fits_eight_mul_iff.1 hfit
  omega

end Sys2Proof.Machine
end

section
/-! SUPPORT. Bus refusals (spec 60_exceptions.md R162, R171): the cause of a refusal by what the command word decodes to,
the answer of a decoded command by its cause, then the statement they settle. -/

namespace Sys2Proof

/-- The cause for which a running call has the instruction refused (60 R162). -/
def Instr.busyCause : Instr → Option BusCause
  | .wrBlk _ _ => some .busyAccess
  | .rdBlk _ => some .busyAccess
  | .start _ => some .busyCommand
  | .clear => some .busyCommand
  | _ => none

/-- The cause for which the encoding has a command word refused (60 R162); a reserved micro-operation is no command
word. -/
def DecodeError.refusalCause : DecodeError → Option BusCause
  | .reservedAddr => some .reservedAddr
  | .writeOnly => some .writeOnly
  | .readOnly => some .readOnly
  | .badCtrl => some .badCtrl
  | .reservedMicroOp => none

/-- The cause of a refusal by the decoder's answer and BUSY. -/
def causeOfDecoded (busy : Bool) : Except DecodeError Instr → Option BusCause
  | .ok i => if busy then i.busyCause else none
  | .error e => e.refusalCause

/-- `CMD` is one of the three commands, or 3. -/
theorem cmd_cases (c : BitVec 2) : c = 0#2 ∨ c = 1#2 ∨ c = 2#2 ∨ c = 3#2 := by revert c; decide

theorem ctrlReservedZero_iff (data : Word) :
    ctrlReservedZero data = true ↔ data.extractLsb' 2 6 = 0#6 ∧ data.extractLsb' 16 16 = 0#16 := by
  rw [ctrlReservedZero, Bool.and_eq_true, beq_iff_eq, beq_iff_eq, and_comm]

/-- A write of CTRL is refused for a malformed word and, during a call, for a command other than CTRL_NOP. -/
theorem causeOfDecoded_decodeCtrl (data : Word) (busy : Bool) :
    causeOfDecoded busy (decodeCtrl data) =
      if data.extractLsb' 0 2 = 3#2 ∨ data.extractLsb' 2 6 ≠ 0#6 ∨ data.extractLsb' 16 16 ≠ 0#16 then some .badCtrl
      else if data.extractLsb' 0 2 ≠ 0#2 ∧ busy = true then some .busyCommand
      else none := by
  have hzero := ctrlReservedZero_iff data
  by_cases h : data.extractLsb' 2 6 = 0#6 ∧ data.extractLsb' 16 16 = 0#16
  · rw [decodeCtrl, if_pos (hzero.2 h), fieldCmd, h.1, h.2]
    rcases cmd_cases (data.extractLsb' 0 2) with hc | hc | hc | hc <;> rw [hc] <;> cases busy <;> rfl
  · rw [decodeCtrl, if_neg (mt hzero.1 h), if_pos (.inr (not_and_or.1 h))]
    rfl

/-- A decoded command has a cause only during a call. -/
theorem causeOfDecoded_ok_eq_some {busy : Bool} {i : Instr} {cause : BusCause} :
    causeOfDecoded busy (.ok i) = some cause ↔ busy = true ∧ i.busyCause = some cause := by
  cases busy <;> simp [causeOfDecoded]

/-- An instruction that a call would have refused has no cause only without a call. -/
theorem busy_eq_false_of_causeOfDecoded {busy : Bool} {i : Instr} {cause : BusCause} (hi : i.busyCause = some cause)
    (hc : causeOfDecoded busy (.ok i) = none) : busy = false := by
  cases busy with
  | false => rfl
  | true => cases hi.symm.trans hc

/-- The cause, which is stated without the decoder, is that of the decoder's answer: region by region of the address
space (20 R35). -/
theorem busCause_eq_causeOfDecoded (w : BitVec 40) (busy : Bool) :
    busCause w busy = causeOfDecoded busy (decodeCommand w) := by
  have hblk : fieldAddr w < Config.ctrlAddr ↔ (fieldAddr w).toNat < 0x40 := Iff.rfl
  have hctrl : fieldAddr w = Config.ctrlAddr ↔ (fieldAddr w).toNat = 0x40 := BitVec.toNat_inj.symm
  have hstatus : fieldAddr w = Config.statusAddr ↔ (fieldAddr w).toNat = 0x41 := BitVec.toNat_inj.symm
  have hrom : Config.romBase ≤ fieldAddr w ∧ fieldAddr w ≤ Config.romLast ↔
      0x50 ≤ (fieldAddr w).toNat ∧ (fieldAddr w).toNat ≤ 0x5C := Iff.rfl
  simp only [busCause, decodeCommand, hblk, hctrl, hstatus, hrom]
  rw [← fieldAddr, ← fieldW, ← fieldData]
  generalize (fieldAddr w).toNat = a
  have hregion : a < 0x40 ∨ a = 0x40 ∨ a = 0x41 ∨ (0x50 ≤ a ∧ a ≤ 0x5C) ∨ (0x42 ≤ a ∧ a ≤ 0x4F ∨ 0x5D ≤ a) := by
    omega
  rcases hregion with h | h | h | h | h <;> simp (disch := omega) only [if_pos, if_neg]
  · simp only [h, true_and]
    cases fieldW w <;> rfl
  · simp only [h, true_and]
    cases fieldW w
    · rfl
    · exact (causeOfDecoded_decodeCtrl (fieldData w) busy).symm
  · simp only [h, true_or, true_and]
    cases fieldW w <;> cases busy <;> rfl
  · simp only [h, and_true, or_true, true_and]
    cases fieldW w <;> cases busy <;> rfl
  · rfl

/-- A ROM read decodes only from an address of the ROM window, and the window ends at index 12 (30 R54). -/
theorem romIndex_le_of_decodeCommand {w : BitVec 40} {k : Fin 16} (hd : decodeCommand w = .ok (.rdRom k)) :
    k.val ≤ 12 := by
  have hwindow : ∀ addr : BitVec 7, Config.romBase ≤ addr ∧ addr ≤ Config.romLast → (fieldRomIndex addr).val ≤ 12 := by
    decide
  simp only [decodeCommand] at hd
  split_ifs at hd
  · cases hd
  · cases hd
  · rcases decodeCtrl_ok hd with h | h | h <;> cases h
  · cases hd
  · next hin _ =>
    cases hd
    exact hwindow _ hin

/-- A host's word is never refused as a micro-operation. -/
theorem decodeCommand_ne_reservedMicroOp (w : BitVec 40) : decodeCommand w ≠ .error .reservedMicroOp := by
  simp only [decodeCommand, decodeCtrl]
  split_ifs <;> simp

end Sys2Proof

namespace Sys2Proof.Machine

open Sys2Proof

/-- During a call an instruction with a cause is refused, with no other effect (60 R162). -/
theorem exec_of_busyCause {i : Instr} {cause : BusCause} {s : State} (hc : i.busyCause = some cause)
    (hb : s.status.busy = true) : exec i s = respondError s := by
  cases i with
  | wrBlk k v => exact exec_wrBlk_busy k v hb
  | rdBlk k => exact exec_rdBlk_busy k hb
  | start len => exact exec_start_busy len hb
  | clear => exact exec_clear_busy hb
  | _ => cases hc

/-- A ROM read of one of the thirteen indices is performed in every state (40 R77). -/
theorem exec_rdRom_of_le {k : Fin 16} (s : State) (hk : k.val ≤ 12) :
    exec (.rdRom k) s = respondOkay (BitVec.ofNat 32 (rom ⟨k.val, by omega⟩)) s := by
  simp [exec, execRdRom, romIndex, show k.val < 13 by omega]

/-- A decoded command without a cause is performed: it answers OKAY or stops in a model fault. -/
theorem exec_okay_or_fault {w : BitVec 40} {i : Instr} {s : State} (hd : decodeCommand w = .ok i)
    (hc : causeOfDecoded s.status.busy (.ok i) = none) :
    (∃ v u, exec i s = respondOkay v u) ∨ ∃ f, exec i s = .fault f := by
  rcases decodeCommand_ok hd with ⟨-, ⟨k, v, rfl⟩ | hctrl⟩ | ⟨-, ⟨k, rfl⟩ | rfl | ⟨k, rfl⟩⟩
  · exact .inl ⟨_, _, exec_wrBlk_free k v (busy_eq_false_of_causeOfDecoded rfl hc)⟩
  · rcases decodeCtrl_ok hctrl with rfl | rfl | rfl
    · exact .inl ⟨_, _, rfl⟩
    · exact .inl ⟨_, _, exec_clear_free (busy_eq_false_of_causeOfDecoded rfl hc)⟩
    · have hb := busy_eq_false_of_causeOfDecoded rfl hc
      by_cases hl : fieldLen (fieldData w) = 64#8
      · rw [hl]
        exact .inl ⟨_, _, exec_start_free_legal hb⟩
      · exact .inl ⟨_, _, exec_start_free_illegal hb hl⟩
  · have hb := busy_eq_false_of_causeOfDecoded rfl hc
    cases hr : Memory.read s.blk k.val with
    | none => exact .inr ⟨_, exec_rdBlk_free_of_none hb hr⟩
    | some v => exact .inl ⟨_, _, exec_rdBlk_free_of_some hb hr⟩
  · exact .inl ⟨_, _, rfl⟩
  · exact .inl ⟨_, _, exec_rdRom_of_le s (romIndex_le_of_decodeCommand hd)⟩

/-- A host command with a cause is refused, whether the encoding or the running call gives the cause. -/
theorem step_of_busCause {w : BitVec 40} {s : State} {cause : BusCause} (hm : HostMoves w s)
    (hc : busCause w s.status.busy = some cause) : step s = respondError (afterInput s) := by
  rw [busCause_eq_causeOfDecoded] at hc
  cases hd : decodeCommand w with
  | error e => exact step_illegal hm hd
  | ok i =>
    rw [hd, causeOfDecoded_ok_eq_some] at hc
    obtain ⟨hb, hi⟩ := hc
    rw [step_of_decodeCommand hm hd]
    exact exec_of_busyCause hi hb

/-- A host command without a cause decodes, so it is performed. -/
theorem step_okay_or_fault {w : BitVec 40} {s : State} (hm : HostMoves w s)
    (hc : busCause w s.status.busy = none) : (∃ v u, step s = respondOkay v u) ∨ ∃ f, step s = .fault f := by
  rw [busCause_eq_causeOfDecoded] at hc
  cases hd : decodeCommand w with
  | ok i =>
    rw [hd] at hc
    rw [step_of_decodeCommand hm hd]
    exact exec_okay_or_fault hd hc
  | error e =>
    rw [hd] at hc
    cases e with
    | reservedMicroOp => exact absurd hd (decodeCommand_ne_reservedMicroOp w)
    | _ => cases hc

/-- Settles O22: the causes are those of the decoder's answer (`busCause_eq_causeOfDecoded`); a command with one is
refused, and a command without one answers OKAY if it answers at all. -/
theorem busRefusalsAreTheSixCauses : Obligations.BusRefusalsAreTheSixCauses := by
  refine fun w s hm => ⟨fun _ => step_of_busCause hm, fun hc t ht => ?_⟩
  rcases step_okay_or_fault hm hc with ⟨v, u, hs⟩ | ⟨f, hs⟩
  · rw [hs, respondOkay_eq] at ht
    cases ht
    exact ⟨v, rfl⟩
  · cases hs.symm.trans ht

end Sys2Proof.Machine
end

section
/-! SUPPORT. Reset (spec 70_reset_and_hazards.md R190): what the platform's reset leaves of a state, then the statement it
settles. -/

namespace Sys2Proof.Machine

open Sys2Proof

/-- No entry holds a value after reset (70 R190). -/
theorem read_platformReset (s : State) (n : Nat) : Memory.read (platformReset s).blk n = none := read_nil n

/-- STATUS has the shape IDLE after reset, so the engine has no step (70 R190, 41 R90). -/
theorem not_engineEnabled_platformReset (s : State) : ¬ EngineEnabled (platformReset s) :=
  not_engineEnabled_of_not_busy idle_busy

/-- Settles O12: the step is the platform's reset (`step_resetAll`), which empties the buffer and gives STATUS the shape
IDLE; the fields, the word and the outputs are those of that shape. -/
theorem resetClearsTheEngine : Obligations.ResetClearsTheEngine := by
  intro s hm
  exact ⟨platformReset (afterInput s), step_resetAll hm, platformReset_seq _, idle_word,
    idle_busy, idle_done, idle_err, idle_ecode, idle_elen, read_platformReset _,
    idle_busy, idle_done, idle_err, not_engineEnabled_platformReset _⟩

end Sys2Proof.Machine
end

section
/-! SUPPORT. The encoder against the decoder (spec 30_encoding.md R51 to R57): the fields of a CTRL word, a masked command
word field by field, decoding after encoding and back, then the statements they settle. -/

namespace Sys2Proof

/-! ### The fields of a CTRL word (R55) -/

/-- The bits of a CTRL word: `LEN` at 15:8, `CMD` at 1:0, the rest 0. -/
theorem getLsbD_ctrlWord (len : BitVec 8) (cmd : BitVec 2) (k : Nat) :
    (ctrlWord len cmd).getLsbD k =
      if k < 2 then cmd.getLsbD k else if k < 8 then false else if k < 16 then len.getLsbD (k - 8) else false := by
  have h : ctrlWord len cmd = (0#16 ++ len ++ 0#6 ++ cmd : BitVec (16 + 8 + 6 + 2)) := rfl
  rw [h, BitVec.getLsbD_append, BitVec.getLsbD_append, BitVec.getLsbD_append]
  split_ifs <;> simp [Nat.sub_sub] <;> omega

@[simp] theorem ctrlReservedZero_ctrlWord (len : BitVec 8) (cmd : BitVec 2) :
    ctrlReservedZero (ctrlWord len cmd) = true := by
  refine (ctrlReservedZero_iff _).2 ⟨?_, ?_⟩ <;> refine BitVec.eq_of_getLsbD_eq fun k hk => ?_
  · rw [BitVec.getLsbD_extractLsb', getLsbD_ctrlWord, if_neg (by omega), if_pos (by omega)]
    simp
  · rw [BitVec.getLsbD_extractLsb', getLsbD_ctrlWord, if_neg (by omega), if_neg (by omega), if_neg (by omega)]
    simp

@[simp] theorem fieldCmd_ctrlWord (len : BitVec 8) (cmd : BitVec 2) : fieldCmd (ctrlWord len cmd) = cmd := by
  refine BitVec.eq_of_getLsbD_eq fun k hk => ?_
  rw [fieldCmd, BitVec.getLsbD_extractLsb', getLsbD_ctrlWord, if_pos (by omega)]
  simp [hk]

@[simp] theorem fieldLen_ctrlWord (len : BitVec 8) (cmd : BitVec 2) : fieldLen (ctrlWord len cmd) = len := by
  refine BitVec.eq_of_getLsbD_eq fun k hk => ?_
  rw [fieldLen, BitVec.getLsbD_extractLsb', getLsbD_ctrlWord, if_neg (by omega), if_neg (by omega), if_pos (by omega)]
  simp [hk]

/-- A data word with its reserved bits zero is made of its own fields. -/
theorem ctrlWord_fields {data : Word} (h : ctrlReservedZero data = true) :
    ctrlWord (fieldLen data) (fieldCmd data) = data := by
  obtain ⟨hlow, hhigh⟩ := (ctrlReservedZero_iff data).1 h
  have low (k : Nat) (h2 : 2 ≤ k) (h8 : k < 8) : data.getLsbD k = false := by
    have := congrArg (BitVec.getLsbD · (k - 2)) hlow
    simpa [show k - 2 < 6 by omega, show 2 + (k - 2) = k by omega] using this
  have high (k : Nat) (h16 : 16 ≤ k) (h32 : k < 32) : data.getLsbD k = false := by
    have := congrArg (BitVec.getLsbD · (k - 16)) hhigh
    simpa [show k - 16 < 16 by omega, show 16 + (k - 16) = k by omega] using this
  refine BitVec.eq_of_getLsbD_eq fun k hk => ?_
  rw [getLsbD_ctrlWord]
  split_ifs with h2 h8 h16
  · simp [fieldCmd, h2]
  · exact (low k (by omega) h8).symm
  · simp [fieldLen, show k - 8 < 8 by omega, show 8 + (k - 8) = k by omega]
  · exact (high k (by omega) hk).symm

/-- The mask of the CTRL commands that ignore `LEN` clears it. -/
theorem ctrlWord_and_mask (len : BitVec 8) (cmd : BitVec 2) : ctrlWord len cmd &&& 0xFFFF00FF#32 = ctrlWord 0#8 cmd := by
  have hmask : 0xFFFF00FF#32 = (0xFFFF#16 ++ 0#8 ++ 0x3F#6 ++ 3#2 : BitVec (16 + 8 + 6 + 2)) := rfl
  have hall : (3#2 : BitVec 2) = BitVec.allOnes 2 := rfl
  rw [hmask]
  simp only [ctrlWord]
  rw [BitVec.and_append, BitVec.and_append, BitVec.and_append, hall, BitVec.and_allOnes, BitVec.and_zero,
    BitVec.zero_and, BitVec.zero_and]

/-! ### Masks field by field -/

/-- Masking a command word masks each of its fields. -/
theorem commandWord_and (wr wr' : Bool) (addr addr' : BitVec 7) (data data' : Word) :
    commandWord wr addr data &&& commandWord wr' addr' data' =
      commandWord (wr && wr') (addr &&& addr') (data &&& data') := by
  rw [← commandWord_fields (commandWord wr addr data &&& commandWord wr' addr' data'), fieldW_and, fieldAddr_and,
    fieldData_and]
  simp

/-- The mask that keeps every bit. -/
theorem commandWord_and_all (wr : Bool) (addr : BitVec 7) (data : Word) :
    commandWord wr addr data &&& 0xFFFFFFFFFF#40 = commandWord wr addr data := BitVec.and_allOnes

/-- The mask of the reads clears `DATA` (R56). -/
theorem commandWord_and_read (wr : Bool) (addr : BitVec 7) (data : Word) :
    commandWord wr addr data &&& 0xFF00000000#40 = commandWord wr addr 0#32 := by
  have hmask : 0xFF00000000#40 = commandWord true (BitVec.allOnes 7) 0#32 := rfl
  rw [hmask, commandWord_and, Bool.and_true, BitVec.and_allOnes, BitVec.and_zero]

/-- The mask of CTRL_NOP and CLEAR clears `LEN` (R56). -/
theorem commandWord_and_ctrl (wr : Bool) (addr : BitVec 7) (len : BitVec 8) (cmd : BitVec 2) :
    commandWord wr addr (ctrlWord len cmd) &&& 0xFFFFFF00FF#40 = commandWord wr addr (ctrlWord 0#8 cmd) := by
  have hmask : 0xFFFFFF00FF#40 = commandWord true (BitVec.allOnes 7) 0xFFFF00FF#32 := rfl
  rw [hmask, commandWord_and, Bool.and_true, BitVec.and_allOnes, ctrlWord_and_mask]

/-! ### Decoding the encoding -/

theorem ofNat_blockIndex_lt (i : Fin 64) : BitVec.ofNat 7 i.val < Config.ctrlAddr := by revert i; decide

theorem fieldBlockIndex_ofNat (i : Fin 64) : fieldBlockIndex (BitVec.ofNat 7 i.val) = i := by revert i; decide

theorem decodeCommand_write_ctrlWord (len : BitVec 8) (cmd : BitVec 2) :
    decodeCommand (commandWord true Config.ctrlAddr (ctrlWord len cmd)) = decodeCtrl (ctrlWord len cmd) := by
  rw [decodeCommand_write_ctrl (fieldW_commandWord ..) (fieldAddr_commandWord ..), fieldData_commandWord]

theorem decodeCtrl_ctrlWord (len : BitVec 8) (cmd : BitVec 2) :
    decodeCtrl (ctrlWord len cmd) =
      if cmd = 0#2 then .ok .ctrlNop else if cmd = 1#2 then .ok (.start len) else if cmd = 2#2 then .ok .clear
      else .error .badCtrl := by
  simp [decodeCtrl]

/-- A read decodes by its address alone (R53). -/
theorem decodeCommand_read (addr : BitVec 7) (data : Word) :
    decodeCommand (commandWord false addr data) =
      if addr < Config.ctrlAddr then .ok (.rdBlk (fieldBlockIndex addr))
      else if addr = Config.ctrlAddr then .error .writeOnly
      else if addr = Config.statusAddr then .ok .rdStatus
      else if Config.romBase ≤ addr ∧ addr ≤ Config.romLast then .ok (.rdRom (fieldRomIndex addr))
      else .error .reservedAddr := by
  simp [decodeCommand]

/-- The addresses of the thirteen constants. -/
theorem romAddress {k : Fin 16} (hk : k.val ≤ 12) :
    ¬ Config.romBase + BitVec.ofNat 7 k.val < Config.ctrlAddr ∧ Config.romBase + BitVec.ofNat 7 k.val ≠ Config.ctrlAddr ∧
      Config.romBase + BitVec.ofNat 7 k.val ≠ Config.statusAddr ∧
      (Config.romBase ≤ Config.romBase + BitVec.ofNat 7 k.val ∧
        Config.romBase + BitVec.ofNat 7 k.val ≤ Config.romLast) ∧
      fieldRomIndex (Config.romBase + BitVec.ofNat 7 k.val) = k := by
  revert k; decide

/-- Settles O1: a command by its fields, region by region of the address space; a micro-operation by its few words. -/
theorem decodeOfEncodeIsIdentity : Obligations.DecodeOfEncodeIsIdentity := by
  intro i hwf
  cases i with
  | wrBlk i v =>
    have h := decodeCommand_write_blk (w := commandWord true (BitVec.ofNat 7 i.val) v) (fieldW_commandWord ..)
      (by rw [fieldAddr_commandWord]; exact ofNat_blockIndex_lt i)
    rwa [fieldAddr_commandWord, fieldBlockIndex_ofNat, fieldData_commandWord] at h
  | rdBlk i =>
    exact (decodeCommand_read _ _).trans
      ((if_pos (ofNat_blockIndex_lt i)).trans (by rw [fieldBlockIndex_ofNat]))
  | ctrlNop => rfl
  | start len => exact (decodeCommand_write_ctrlWord _ _).trans (decodeCtrl_ctrlWord _ _)
  | clear => rfl
  | rdStatus => rfl
  | rdRom k =>
    obtain ⟨hblk, hctrl, hstatus, hwindow, hk⟩ := romAddress (of_decide_eq_true hwf)
    simp only [decode, encode, decodeCommand_read, if_neg hblk, if_neg hctrl, if_neg hstatus, if_pos hwindow, hk]
  | row r => match r with | 0 | 1 | 2 | 3 | 4 | 5 | 6 | 7 => rfl
  | col c => match c with | 0 | 1 | 2 | 3 | 4 | 5 | 6 | 7 => rfl
  | endCall => rfl

/-! ### Encoding what was decoded -/

theorem ofNat_fieldBlockIndex {addr : BitVec 7} (h : addr < Config.ctrlAddr) :
    BitVec.ofNat 7 (fieldBlockIndex addr).val = addr := by
  revert addr; decide

theorem ofNat_fieldRomIndex {addr : BitVec 7} (h : Config.romBase ≤ addr ∧ addr ≤ Config.romLast) :
    (fieldRomIndex addr).val ≤ 12 ∧ Config.romBase + BitVec.ofNat 7 (fieldRomIndex addr).val = addr := by
  revert addr; decide

/-- A write of CTRL: `START` ignores no bit, the other two commands ignore `LEN` (R56). -/
theorem encode_of_decodeCtrl {data : Word} {i : Instr} (h : decodeCtrl data = .ok i) :
    i.wellFormed = true ∧ encode i = .command (commandWord true Config.ctrlAddr data &&& i.significant) := by
  have hz : ctrlReservedZero data = true := by
    cases hz : ctrlReservedZero data with
    | true => rfl
    | false => simp [decodeCtrl, hz] at h
  rw [← ctrlWord_fields hz, decodeCtrl_ctrlWord] at h
  rw [← ctrlWord_fields hz]
  generalize fieldLen data = len at h ⊢
  generalize fieldCmd data = cmd at h ⊢
  split_ifs at h with h0 h1 h2 <;> cases h
  · subst h0; exact ⟨rfl, congrArg _ (commandWord_and_ctrl _ _ len _).symm⟩
  · subst h1; exact ⟨rfl, congrArg _ (commandWord_and_all _ _ _).symm⟩
  · subst h2; exact ⟨rfl, congrArg _ (commandWord_and_ctrl _ _ len _).symm⟩

/-- Settles O2: the word is its fields; each region of the address space gives the fields back, and the mask clears what
the region ignores. -/
theorem encodeOfDecodedCommandKeepsSignificantBits : Obligations.EncodeOfDecodedCommandKeepsSignificantBits := by
  intro w i h
  obtain ⟨wr, addr, data, rfl⟩ := eq_commandWord w
  cases wr with
  | true =>
    simp only [decodeCommand, fieldAddr_commandWord, fieldW_commandWord, fieldData_commandWord, if_true] at h
    split_ifs at h with hblk hctrl
    · cases h
      exact ⟨rfl, by simp only [encode, Instr.significant, ofNat_fieldBlockIndex hblk, commandWord_and_all]⟩
    · subst hctrl
      exact encode_of_decodeCtrl h
  | false =>
    rw [decodeCommand_read] at h
    split_ifs at h with hblk hctrl hstatus hrom <;> cases h
    · exact ⟨rfl, by simp only [encode, Instr.significant, ofNat_fieldBlockIndex hblk, commandWord_and_read]⟩
    · subst hstatus
      exact ⟨rfl, by simp only [encode, Instr.significant, commandWord_and_read]⟩
    · obtain ⟨hle, haddr⟩ := ofNat_fieldRomIndex hrom
      exact ⟨decide_eq_true hle, by simp only [encode, Instr.significant, haddr, commandWord_and_read]⟩

/-! ### The opcode table as masks and matches (R53) -/

/-- A row selects a command word by `{W, ADDR}`. -/
def OpcodeRow.selectsHigh (row : OpcodeRow) (wr : Bool) (addr : BitVec 7) : Bool :=
  (BitVec.ofBool wr ++ addr : BitVec 8) &&& row.mask.extractLsb' 32 8 == row.pattern.extractLsb' 32 8

/-- A row selects a command word by `DATA`. -/
def OpcodeRow.selectsData (row : OpcodeRow) (data : Word) : Bool :=
  data &&& row.mask.extractLsb' 0 32 == row.pattern.extractLsb' 0 32

/-- A 40-bit word is its upper 8 bits above its lower 32. -/
theorem high_append_low (w : BitVec 40) : (w.extractLsb' 32 8 ++ w.extractLsb' 0 32 : BitVec 40) = w := by
  refine BitVec.eq_of_getLsbD_eq fun k hk => ?_
  rw [show (w.extractLsb' 32 8 ++ w.extractLsb' 0 32 : BitVec 40) = (w.extractLsb' 32 8 ++ w.extractLsb' 0 32 :
    BitVec (8 + 32)) from rfl, BitVec.getLsbD_append]
  split_ifs with h
  · simp [h]
  · simp [show k - 32 < 8 by omega, show 32 + (k - 32) = k by omega]

/-- Selection looks at the two parts of the word apart. -/
theorem selects_commandWord (row : OpcodeRow) (wr : Bool) (addr : BitVec 7) (data : Word) :
    row.selects (commandWord wr addr data) = (row.selectsData data && row.selectsHigh wr addr) := by
  have hword : commandWord wr addr data = ((BitVec.ofBool wr ++ addr : BitVec 8) ++ data : BitVec (8 + 32)) := rfl
  have key : commandWord wr addr data &&& row.mask = row.pattern ↔
      data &&& row.mask.extractLsb' 0 32 = row.pattern.extractLsb' 0 32 ∧
        (BitVec.ofBool wr ++ addr : BitVec 8) &&& row.mask.extractLsb' 32 8 = row.pattern.extractLsb' 32 8 := by
    constructor
    · intro h
      rw [← h, hword, BitVec.extractLsb'_and, BitVec.extractLsb'_and]
      exact ⟨congrArg (· &&& _) BitVec.extractLsb'_append_eq_right.symm,
        congrArg (· &&& _) BitVec.extractLsb'_append_eq_left.symm⟩
    · rintro ⟨hd, hh⟩
      rw [← high_append_low row.pattern, ← hd, ← hh, ← BitVec.and_append, high_append_low, hword]
  rw [Bool.eq_iff_iff, Bool.and_eq_true]
  simpa only [OpcodeRow.selects, OpcodeRow.selectsData, OpcodeRow.selectsHigh, beq_iff_eq] using key

/-- The rows `{W, ADDR}` leaves, then those of them that `DATA` leaves. -/
theorem filter_selects (wr : Bool) (addr : BitVec 7) (data : Word) :
    (commandTable.filter fun row => row.selects (commandWord wr addr data)) =
      (commandTable.filter fun row => row.selectsHigh wr addr).filter fun row => row.selectsData data := by
  rw [List.filter_filter]
  exact List.filter_congr fun row _ => selects_commandWord row wr addr data

/-- The names of the rows that select a word the decoder answers so. -/
def namesOf : Except DecodeError Instr → List String
  | .ok i => [i.mnemonic]
  | .error _ => []

/-- Outside CTRL the rows that `{W, ADDR}` leaves do not look at `DATA`. -/
theorem selectsData_of_selectsHigh {wr : Bool} {addr : BitVec 7} (h : (wr, addr) ≠ (true, Config.ctrlAddr)) (data : Word) :
    (commandTable.filter fun row => row.selectsHigh wr addr).filter (fun row => row.selectsData data) =
      commandTable.filter fun row => row.selectsHigh wr addr := by
  have hfree : ∀ (wr : Bool) (addr : BitVec 7), (wr, addr) ≠ (true, Config.ctrlAddr) →
      ∀ row ∈ commandTable.filter (fun row => row.selectsHigh wr addr),
        row.mask.extractLsb' 0 32 = 0#32 ∧ row.pattern.extractLsb' 0 32 = 0#32 := by decide
  refine List.filter_eq_self.2 fun row hrow => ?_
  obtain ⟨hm, hp⟩ := hfree wr addr h row hrow
  rw [OpcodeRow.selectsData, hm, hp, BitVec.and_zero, beq_self_eq_true]

/-- A read is selected by its address alone, and by at most one row. -/
theorem names_selectsHigh_read (addr : BitVec 7) :
    (commandTable.filter fun row => row.selectsHigh false addr).map OpcodeRow.mnemonic =
      namesOf (decodeCommand (commandWord false addr 0#32)) := by
  revert addr; decide

/-- So is a write outside CTRL. -/
theorem names_selectsHigh_write (addr : BitVec 7) (h : addr ≠ Config.ctrlAddr) :
    (commandTable.filter fun row => row.selectsHigh true addr).map OpcodeRow.mnemonic =
      namesOf (decodeCommand (commandWord true addr 0#32)) := by
  revert addr; decide

/-- A write of CTRL is selected by `CMD` if its reserved bits are zero, and else by no row. -/
theorem names_selectsData_ctrl (data : Word) :
    ((commandTable.filter fun row => row.selectsHigh true Config.ctrlAddr).filter
      fun row => row.selectsData data).map OpcodeRow.mnemonic = namesOf (decodeCtrl data) := by
  have hrows : (commandTable.filter fun row => row.selectsHigh true Config.ctrlAddr) =
      [⟨"CTRL_NOP", 0xFFFFFF00FF#40, 0xC000000000#40⟩, ⟨"START", 0xFFFFFF00FF#40, 0xC000000001#40⟩,
        ⟨"CLEAR", 0xFFFFFF00FF#40, 0xC000000002#40⟩] := by decide
  have hmask : (0xFFFFFF00FF#40).extractLsb' 0 32 = 0xFFFF00FF#32 := rfl
  rw [hrows]
  by_cases hz : ctrlReservedZero data = true
  · have hsel (row : OpcodeRow) (hm : row.mask = 0xFFFFFF00FF#40) :
        row.selectsData data = (ctrlWord 0#8 (fieldCmd data) == row.pattern.extractLsb' 0 32) := by
      rw [OpcodeRow.selectsData, hm, hmask, ← ctrlWord_and_mask (fieldLen data), ctrlWord_fields hz]
    rw [List.filter_congr (q := fun row => ctrlWord 0#8 (fieldCmd data) == row.pattern.extractLsb' 0 32)
      (by simp [hsel]), decodeCtrl, if_pos hz]
    rcases cmd_cases (fieldCmd data) with hc | hc | hc | hc <;> rw [hc] <;> rfl
  · have hsel (row : OpcodeRow) (hm : row.mask = 0xFFFFFF00FF#40)
        (hp : ctrlReservedZero (row.pattern.extractLsb' 0 32) = true) : row.selectsData data = false := by
      refine beq_eq_false_iff_ne.2 fun h => hz ?_
      rw [hm] at h
      have hlow : ((0xFFFFFF00FF#40).extractLsb' 0 32).extractLsb' 2 6 = BitVec.allOnes 6 := by decide
      have hhigh : ((0xFFFFFF00FF#40).extractLsb' 0 32).extractLsb' 16 16 = BitVec.allOnes 16 := by decide
      rw [← h] at hp
      simpa only [ctrlReservedZero, BitVec.extractLsb'_and, hlow, hhigh, BitVec.and_allOnes] using hp
    rw [decodeCtrl, if_neg hz, List.filter_eq_nil_iff.2 (by simp [hsel, ctrlReservedZero])]
    rfl

/-- The rows that select a word are those of the decoder's answer. -/
theorem names_of_selecting_rows (w : BitVec 40) :
    (commandTable.filter fun row => row.selects w).map OpcodeRow.mnemonic = namesOf (decodeCommand w) := by
  obtain ⟨wr, addr, data, rfl⟩ := eq_commandWord w
  rw [filter_selects]
  cases wr with
  | false =>
    rw [selectsData_of_selectsHigh (by simp), names_selectsHigh_read, decodeCommand_read, decodeCommand_read]
  | true =>
    by_cases ha : addr = Config.ctrlAddr
    · subst ha
      rw [names_selectsData_ctrl, decodeCommand_write_ctrl (fieldW_commandWord ..) (fieldAddr_commandWord ..),
        fieldData_commandWord]
    · rw [selectsData_of_selectsHigh (by simp [ha]), names_selectsHigh_write addr ha]
      simp only [decodeCommand, fieldAddr_commandWord, fieldW_commandWord, if_true, if_neg ha]
      split_ifs <;> rfl

/-- Settles O3: the selecting rows have the name the decoder's answer gives, one for an instruction and none for an
error. -/
theorem commandDecodeAgreesWithMaskTable : Obligations.CommandDecodeAgreesWithMaskTable := by
  refine fun w => ⟨fun i h => ?_, fun e h => ?_⟩
  · rw [names_of_selecting_rows, h, namesOf]
  · rw [← List.map_eq_nil_iff (f := OpcodeRow.mnemonic), names_of_selecting_rows, h, namesOf]

/-! ### Words written out, and the assembler's words (R60) -/

/-- Settles O5: eleven fixed words. -/
theorem wordsOfTheSpecDecode : Obligations.WordsOfTheSpecDecode :=
  ⟨rfl, rfl, rfl, rfl, rfl, rfl, rfl, rfl, rfl, rfl, rfl⟩

end Sys2Proof

namespace Sys2Proof.Machine

open Sys2Proof

theorem decodeCommand_asmWr (i : Fin 64) (v : Int) : decodeCommand (asmWr i v) = .ok (.wrBlk i (Word.ofInt v)) :=
  decodeOfEncodeIsIdentity (.wrBlk i (Word.ofInt v)) rfl

theorem decodeCommand_asmRd (i : Fin 64) : decodeCommand (asmRd i) = .ok (.rdBlk i) :=
  decodeOfEncodeIsIdentity (.rdBlk i) rfl

/-- The sum 30 R60 gives for `START` is the word of the encoder. -/
theorem asmStart_eq (len : BitVec 8) : asmStart len = commandWord true Config.ctrlAddr (ctrlWord len 1#2) := by
  revert len; decide

theorem decodeCommand_asmStart (len : BitVec 8) : decodeCommand (asmStart len) = .ok (.start len) := by
  rw [asmStart_eq]
  exact decodeOfEncodeIsIdentity (.start len) rfl

theorem decodeCommand_asmRdStatus : decodeCommand asmRdStatus = .ok .rdStatus := rfl

theorem decodeCommand_asmRdRom (k : Fin 13) :
    decodeCommand (commandWord false (BitVec.ofNat 7 (0x50 + k.val)) 0#32) = .ok (.rdRom ⟨k.val, by omega⟩) := by
  have haddr : ∀ k : Fin 13, BitVec.ofNat 7 (0x50 + k.val) = Config.romBase + BitVec.ofNat 7 k.val := by decide
  rw [haddr]
  exact decodeOfEncodeIsIdentity (.rdRom ⟨k.val, by omega⟩) (decide_eq_true (Nat.le_of_lt_succ k.isLt))

/-- Settles O6: each word of a line is the encoder's word of the operation it names, so decoding gives it back. -/
theorem assemblerWordsDecode : Obligations.AssemblerWordsDecode := by
  refine ⟨fun i v => ?_, fun i => ?_, rfl, fun len => ?_, rfl, rfl, fun k => ?_, fun w => rfl, fun v => ?_, fun polls => ?_,
    fun polls => ?_, ?_, rfl, rfl⟩
  · rw [AsmLine.words, List.map_singleton, decodeCommand_asmWr]
  · rw [AsmLine.words, List.map_singleton, decodeCommand_asmRd]
  · rw [AsmLine.words, List.map_singleton, decodeCommand_asmStart]
  · rw [AsmLine.words, List.map_singleton, decodeCommand_asmRdRom]
  · rw [AsmLine.words, List.map_map]
    exact List.map_congr_left fun i _ => decodeCommand_asmWr i v[i]
  · rw [AsmLine.words, List.map_replicate, decodeCommand_asmRdStatus]
  · rw [AsmLine.words, List.map_cons, List.map_replicate, decodeCommand_asmStart, decodeCommand_asmRdStatus]
  · rw [AsmLine.words, List.map_map]
    exact List.map_congr_left fun i _ => decodeCommand_asmRd i

end Sys2Proof.Machine
end

section
/-! SUPPORT. Host programs (spec 30_encoding.md R60) and several instances (60_exceptions.md R174): the engine's turns
among a program's moves, the step of one engine among the others, then the statements they settle. -/

namespace Sys2Proof.Machine

open Sys2Proof

/-! ### Engine turns among moves -/

/-- The place of every engine turn, by the number of the move it stands before. -/
theorem interleave_eq_flatMap (turns : List Nat) (ms : List Input) :
    interleave turns ms =
      ms.zipIdx.flatMap fun p => List.replicate (turns.getD p.2 0) Input.engineTurn ++ [p.1] := by
  induction ms generalizing turns with
  | nil => cases turns <;> rfl
  | cons m ms ih =>
    rw [List.zipIdx_cons, List.flatMap_cons, List.zipIdx_succ, List.flatMap_map]
    cases turns with
    | nil =>
      have hnil : interleave [] ms = ms := by cases ms <;> rfl
      exact congrArg (m :: ·) (hnil.symm.trans (ih []))
    | cons k ks =>
      rw [interleave, ih ks, List.append_assoc]
      rfl

/-- Leaving the engine's turns out undoes the placing. -/
theorem filter_interleave (turns : List Nat) (ms : List Input) :
    (interleave turns ms).filter (fun m => m != .engineTurn) = ms.filter fun m => m != .engineTurn := by
  induction ms generalizing turns with
  | nil => cases turns <;> rfl
  | cons m ms ih =>
    cases turns with
    | nil => rfl
    | cons k ks => rw [interleave, List.filter_append, List.filter_replicate, if_neg (by simp), List.nil_append,
        List.filter_cons, List.filter_cons, ih]

/-- A line stands for commands or the reset, never for a turn of the engine. -/
theorem moves_ne_engineTurn {line : AsmLine} {m : Input} (h : m ∈ line.moves) : m ≠ .engineTurn := by
  have hcommand (l : List (BitVec 40)) (hl : m ∈ l.map Input.command) : m ≠ .engineTurn := by
    obtain ⟨w, -, rfl⟩ := List.mem_map.1 hl
    simp
  cases line with
  | reset => rw [List.mem_singleton.1 h]; simp
  | _ => exact hcommand _ h

/-- Settles O7: the placing by `interleave_eq_flatMap`; the moves of the lines are what the filter keeps. -/
theorem assembledProgramKeepsItsMoves : Obligations.AssembledProgramKeepsItsMoves := by
  refine fun program => ⟨fun turns => interleave_eq_flatMap turns _, fun turns => ?_, ?_⟩
  · rw [assemble, filter_interleave, List.filter_eq_self]
    intro m hm
    obtain ⟨line, -, hline⟩ := List.mem_flatMap.1 hm
    simpa using moves_ne_engineTurn hline
  · rw [assemble]
    cases program.flatMap AsmLine.moves <;> rfl

/-! ### Instances -/

/-- A step of engine `k` changes engine `k` alone. -/
theorem fleetStep_eq_modify (engines : List Engine) (k : Nat) : fleetStep engines k = engines.modify k Engine.step := by
  refine List.ext_getElem? fun l => ?_
  rw [fleetStep, List.getElem?_modify]
  cases hk : engines[k]? with
  | none =>
    by_cases hl : k = l
    · subst hl; simp [hk]
    · simp [hl]
  | some e =>
    by_cases hl : k = l
    · subst hl
      obtain ⟨hlt, rfl⟩ := List.getElem?_eq_some_iff.1 hk
      simp [hlt]
    · simp [hl]

theorem getElem?_fleetStep (engines : List Engine) (k l : Nat) :
    (fleetStep engines k)[l]? = if k = l then engines[l]?.map Engine.step else engines[l]? := by
  rw [fleetStep_eq_modify, List.getElem?_modify]
  split <;> simp

/-- The steps of two engines commute, whether or not they are the same. -/
theorem fleetStep_comm (engines : List Engine) (k l : Nat) :
    fleetStep (fleetStep engines k) l = fleetStep (fleetStep engines l) k := by
  refine List.ext_getElem? fun n => ?_
  simp only [getElem?_fleetStep]
  split_ifs <;> rfl

/-- Settles O50: the step of an engine is its own outcome, and in the list it changes one place. -/
theorem fleetInstancesAreIndependent : Obligations.FleetInstancesAreIndependent := by
  refine ⟨fun s t h => ?_, fun s f h => ?_, fun s r h => ?_, fun engines k l => ⟨?_, fun hl => ?_, ?_, ?_⟩⟩
  · rw [Engine.step, h]
  · rw [Engine.step, h]
  · rw [Engine.step, h]
  · rw [getElem?_fleetStep, if_pos rfl]
  · rw [getElem?_fleetStep, if_neg hl.symm]
  · rw [fleetStep_eq_modify, List.length_modify]
  · exact fleetStep_comm engines k l

/-- Settles O51, by induction on the schedule: each of its steps is one of the engine's own or leaves it alone. -/
theorem eachInstanceRunsAsItWouldAlone : Obligations.EachInstanceRunsAsItWouldAlone := by
  intro schedule
  induction schedule with
  | nil => intro engines l; cases h : engines[l]? <;> rw [fleetRun, h] <;> rfl
  | cons k schedule ih =>
    intro engines l
    rw [fleetRun, ih, getElem?_fleetStep, List.count_cons]
    by_cases hk : k = l
    · rw [if_pos hk, if_pos (by simpa using hk), Option.map_map]
      rfl
    · rw [if_neg hk, if_neg (by simpa using hk), Nat.add_zero]

end Sys2Proof.Machine
end

section
/-! SUPPORT. What a step runs (spec 00_scope.md R14, 41_sequencer_microops.md R90), the state after reset (10_state.md
R31), and the two read commands that answer in every state (40_host_interface_ops.md R76, R77). -/

namespace Sys2Proof

/-- The mask of RD_STATUS keeps `{W, ADDR}` (30 R53). -/
theorem highFields_of_and_mask {w p : BitVec 40} (h : w &&& 0xFF00000000#40 = p) :
    fieldW w = fieldW p ∧ fieldAddr w = fieldAddr p := by
  subst h
  have haddr : fieldAddr 0xFF00000000#40 = BitVec.allOnes 7 := by decide
  refine ⟨?_, ?_⟩
  · rw [fieldW_and]; exact (Bool.and_true _).symm
  · rw [fieldAddr_and, haddr, BitVec.and_allOnes]

/-- The ROM index is bits 35:32 of the word (30 R51, R54). -/
theorem fieldRomIndex_fieldAddr (w : BitVec 40) : (fieldRomIndex (fieldAddr w)).val = (w.extractLsb' 32 4).toNat := by
  simp only [fieldRomIndex, fieldAddr]
  congr 1
  ext k hk
  simp [show k < 7 by omega]

/-- The mask of a read of the ROM window leaves its index out (30 R53). -/
theorem romFields_of_and_mask {w : BitVec 40} (h : w &&& 0xF000000000#40 = 0x5000000000#40) :
    fieldW w = false ∧ fieldAddr w &&& 0x70#7 = 0x50#7 := by
  have hw : fieldW (w &&& 0xF000000000#40) = false := by rw [h]; rfl
  have ha : fieldAddr (w &&& 0xF000000000#40) = 0x50#7 := by rw [h]; rfl
  have hmask : fieldAddr 0xF000000000#40 = 0x70#7 := by decide
  rw [fieldW_and] at hw
  rw [fieldAddr_and, hmask] at ha
  exact ⟨(Bool.and_true _).symm.trans hw, ha⟩

/-- A read of the window at one of its thirteen indices (30 R54). -/
theorem decodeCommand_read_rom {w : BitVec 40} (hw : fieldW w = false) (ha : fieldAddr w &&& 0x70#7 = 0x50#7)
    (hk : (fieldRomIndex (fieldAddr w)).val ≤ 12) : decodeCommand w = .ok (.rdRom (fieldRomIndex (fieldAddr w))) := by
  have hregion : ∀ addr : BitVec 7, addr &&& 0x70#7 = 0x50#7 → (fieldRomIndex addr).val ≤ 12 →
      ¬ addr < Config.ctrlAddr ∧ addr ≠ Config.ctrlAddr ∧ addr ≠ Config.statusAddr ∧
        Config.romBase ≤ addr ∧ addr ≤ Config.romLast := by decide
  obtain ⟨hblk, hctrl, hstatus, hwindow⟩ := hregion _ ha hk
  rw [← commandWord_fields w, hw, decodeCommand_read, if_neg hblk, if_neg hctrl, if_neg hstatus, if_pos hwindow,
    fieldAddr_commandWord]

end Sys2Proof

namespace Sys2Proof.Machine

open Sys2Proof

/-! ### What a step runs -/

/-- Settles O8: the next move is the command's, and the command decodes. -/
theorem stepPerformsTheDecodedCommand : Obligations.StepPerformsTheDecodedCommand :=
  fun _ _ _ hm hd => step_of_decodeCommand hm hd

/-- Settles O9: the next move is the engine's, and `seq` selects the micro-operation. -/
theorem stepPerformsTheSelectedMicroOp : Obligations.StepPerformsTheSelectedMicroOp :=
  fun _ _ hm hb hd => step_of_decodeMicroOp hm hb hd

theorem eq_ok_of_decoded? {d : Except DecodeError Instr} {i : Instr} (h : decoded? d = some i) : d = .ok i := by
  cases d with
  | ok j => exact congrArg _ (Option.some.inj h)
  | error e => cases h

/-- A word that a row of the table gives decodes in the format of the row's length. -/
theorem decodeTableWord_some {nbits w : Nat} {i : Instr} (h : decodeTableWord nbits w = some i) :
    (8 < nbits → decodeCommand (BitVec.ofNat 40 w) = .ok i) ∧ (nbits ≤ 8 → decodeMicroOp (BitVec.ofNat 5 w) = .ok i) := by
  unfold decodeTableWord at h
  split_ifs at h with hn hw hw
  · exact ⟨fun h8 => absurd hn (by omega), fun _ => eq_ok_of_decoded? h⟩
  · exact ⟨fun _ => eq_ok_of_decoded? h, fun h8 => absurd h8 hn⟩

/-- Settles O10: by the row's format, the placed word is the next move and decodes to `i`. -/
theorem placedWordRunsNext : Obligations.PlacedWordRunsNext := by
  intro s nbits w i h
  obtain ⟨hcommand, hmicro⟩ := decodeTableWord_some h
  refine ⟨fun hn => ?_, fun hn => ?_⟩
  · rw [step, withFetchWord_command s w hn, commandAction, hcommand hn]
  · rw [step, withFetchWord_microOp s w hn, engineAction]
    simp only [running_busy, if_true, hmicro hn]

/-- Without a running call the engine's turn takes the turn and nothing else (41 R90). -/
theorem step_idle {s : State} (hm : EngineMoves s) (hb : s.status.busy = false) : step s = .next (afterInput s) := by
  rw [step, nextAction_engine hm, engineAction_of_not_busy (busy_afterInput hb)]

/-- During a call a sequencer in its range selects a micro-operation (41 R90, 10 R23). -/
theorem engineEnabled_of_busy {s : State} (hb : s.status.busy = true) (hseq : s.seq.toNat ≤ 16) : EngineEnabled s := by
  have henabled {i : Instr} (hd : decodeMicroOp s.seq = .ok i) : EngineEnabled s :=
    ⟨i, by simp only [engineAction, hb, if_true, hd]⟩
  rcases decodeMicroOp_cases s.seq with ⟨k, -, hd⟩ | ⟨k, -, hd⟩ | ⟨-, hd⟩ | ⟨hge, -⟩
  · exact henabled hd
  · exact henabled hd
  · exact henabled hd
  · omega

/-- Settles O11: enabled exactly while BUSY by the range of `seq`; without BUSY, as after a reset and after END, the turn is
idle. -/
theorem engineIdlesWhileNotBusy : Obligations.EngineIdlesWhileNotBusy := by
  refine ⟨fun s hinv => ⟨fun he => ?_, fun hb => engineEnabled_of_busy hb hinv.seqRange⟩,
    fun _ => not_engineEnabled_of_not_busy, fun _ => step_idle, fun s t hr hs ht => ?_, fun s t hs ht => ?_⟩
  · by_contra hb
    exact not_engineEnabled_of_not_busy (Bool.eq_false_iff.2 hb) he
  · rw [step_resetAll hr] at hs
    cases hs
    exact step_idle ht rfl
  · rw [exec_endCall] at hs
    cases hs
    exact step_idle ht rfl

/-! ### After reset -/

theorem exec_row (r : Fin 8) (s : State) : exec (.row r) s = butterflyInPlace (rowIndex r) bflyRow s := rfl

theorem exec_col (c : Fin 8) (s : State) : exec (.col c) s = butterflyInPlace (colIndex c) bflyCol s := rfl

/-- A row of an empty buffer faults at its first place (60 R168). -/
theorem exec_row_reset (r : Fin 8) : exec (.row r) State.reset = .fault (.uninitRead (rowIndex r 0)) := by
  rw [exec_row, butterflyInPlace_fault]
  exact .inl rfl

/-- Settles O13: the fields of the reset state, and reads of a buffer in which no entry has a value. -/
theorem stateAfterReset : Obligations.StateAfterReset :=
  ⟨rfl, idle_word, rfl, rfl, rfl, fun _ => exec_rdBlk_free_of_none rfl rfl, exec_row_reset⟩

/-! ### RD_STATUS -/

/-- The status word as the sum of its fields, each at its place (40 R76). -/
theorem Status.toNat_word (st : Status) :
    st.word.toNat = st.busy.toNat + 2 * st.done.toNat + 4 * st.err.toNat + 16 * st.ecode.toNat + 256 * st.elen.toNat := by
  simp only [Status.word, toNat_append_eq_add, BitVec.toNat_ofNat, BitVec.toNat_ofBool]
  omega

/-- A flag of the word is the bit at its place. -/
theorem getLsbD_of_div_mod {w : Word} {k : Nat} {b : Bool} (h : w.toNat / 2 ^ k % 2 = b.toNat) : w.getLsbD k = b := by
  rw [BitVec.getLsbD, Nat.testBit_eq_decide_div_mod_eq, h]
  cases b <;> rfl

/-- The fields of the status word at their places, the reserved bits 0 (40 R76). -/
theorem Status.word_fields (st : Status) :
    st.word.getLsbD 0 = st.busy ∧ st.word.getLsbD 1 = st.done ∧ st.word.getLsbD 2 = st.err ∧
      st.word.getLsbD 3 = false ∧ st.word.extractLsb' 4 4 = st.ecode ∧ st.word.extractLsb' 8 8 = st.elen ∧
      st.word.extractLsb' 16 16 = 0#16 := by
  have hword := st.toNat_word
  have hbusy := st.busy.toNat_le
  have hdone := st.done.toNat_le
  have herr := st.err.toNat_le
  have hcode := st.ecode.isLt
  have hlen := st.elen.isLt
  refine ⟨getLsbD_of_div_mod ?_, getLsbD_of_div_mod ?_, getLsbD_of_div_mod ?_, getLsbD_of_div_mod ?_,
    BitVec.eq_of_toNat_eq ?_, BitVec.eq_of_toNat_eq ?_, BitVec.eq_of_toNat_eq ?_⟩
  · omega
  · omega
  · omega
  · rw [Bool.toNat_false]; omega
  · rw [BitVec.extractLsb'_toNat, Nat.shiftRight_eq_div_pow]; omega
  · rw [BitVec.extractLsb'_toNat, Nat.shiftRight_eq_div_pow]; omega
  · rw [BitVec.extractLsb'_toNat, Nat.shiftRight_eq_div_pow, BitVec.toNat_ofNat]; omega

/-- The four words of the four shapes (10 R25). -/
theorem StatusShape.word_cases {st : Status} (h : StatusShape st) :
    st.word = 0#32 ∨ st.word = 1#32 ∨ st.word = 2#32 ∨
      ∃ len : BitVec 8, len ≠ 64#8 ∧ st.word.toNat = 0x14 + 256 * len.toNat := by
  rcases h with rfl | rfl | rfl | ⟨len, hlen, rfl⟩
  · exact .inl idle_word
  · exact .inr (.inl running_word)
  · exact .inr (.inr (.inl completed_word))
  · exact .inr (.inr (.inr ⟨len, hlen, toNat_word_invalidLength len⟩))

/-- Settles O19: the words by `W` and the address; the response is the status word, with its fields at their places. -/
theorem rdStatusReturnsTheFields : Obligations.RdStatusReturnsTheFields := by
  refine ⟨fun w h => ?_, fun s => ⟨s.status.word, rfl, ?_⟩⟩
  · obtain ⟨hw, ha⟩ := highFields_of_and_mask h
    rw [← commandWord_fields w, hw, ha]
    exact decodeCommand_read _ _
  · obtain ⟨h0, h1, h2, h3, hcode, hlen, hzero⟩ := s.status.word_fields
    exact ⟨h0, h1, h2, h3, hcode, hlen, hzero, fun hinv => StatusShape.word_cases hinv.shape⟩

/-! ### RD_ROM -/

/-- The reserved indices of the window are refused (40 R78, 44 R155). -/
theorem exec_rdRom_reserved {k : Fin 16} (s : State) (hk : 13 ≤ k.val) : exec (.rdRom k) s = respondError s := by
  simp [exec, execRdRom, romIndex, show ¬ k.val < 13 by omega]

/-- Settles O20: the words by `W` and the window's index; the thirteen indices answer in every state, the other three are
refused. -/
theorem rdRomReturnsTheConstant : Obligations.RdRomReturnsTheConstant := by
  refine ⟨fun w h hk => ?_, fun k s => exec_rdRom_of_le s (Nat.le_of_lt_succ k.isLt), fun k s => exec_rdRom_reserved s⟩
  obtain ⟨hw, ha⟩ := romFields_of_and_mask h
  rw [← fieldRomIndex_fieldAddr] at hk ⊢
  exact ⟨_, decodeCommand_read_rom hw ha hk, rfl⟩

/-- Settles O21: thirteen values and what relates them. -/
theorem romTableIsConsistent : Obligations.RomTableIsConsistent := by
  unfold Obligations.RomTableIsConsistent
  decide

end Sys2Proof.Machine
end

section
/-! SUPPORT. The butterfly against its exact integer form (spec 42_butterfly_row_pass.md, 43_butterfly_column_pass.md): the
datapath's primitives, both modes as lists of checked nodes in front of a result, and rows and columns without AC
entries. -/

namespace Sys2Proof.Machine

open Sys2Proof

/-! ### Primitives (00_scope.md R10 to R13) -/

/-- A right shift is the floor of the quotient (00 R13). -/
theorem sar_bounds (v : Int) (k : Nat) : 2 ^ k * sar v k ≤ v ∧ v < 2 ^ k * sar v k + 2 ^ k := by
  have hpos : (0 : Int) < 2 ^ k := by positivity
  have hdiv := Int.mul_ediv_add_emod v (2 ^ k)
  have hnonneg := Int.emod_nonneg v hpos.ne'
  have hlt := Int.emod_lt_of_pos v hpos
  exact ⟨by rw [sar]; omega, by rw [sar]; omega⟩

/-- With half the divisor added before it the shift rounds to nearest (00 R13). -/
theorem sar_round_bounds (v : Int) {k : Nat} (hk : 0 < k) :
    2 * v - 2 ^ k < 2 * (2 ^ k * sar (v + 2 ^ (k - 1)) k) ∧ 2 * (2 ^ k * sar (v + 2 ^ (k - 1)) k) ≤ 2 * v + 2 ^ k := by
  obtain ⟨hle, hlt⟩ := sar_bounds (v + 2 ^ (k - 1)) k
  have hhalf : (2 : Int) ^ k = 2 * 2 ^ (k - 1) := by rw [← pow_succ', Nat.sub_add_cancel hk]
  generalize sar (v + 2 ^ (k - 1)) k = q at hle hlt ⊢
  generalize (2 : Int) ^ k * q = p at hle hlt ⊢
  exact ⟨by omega, by omega⟩

/-- Settles O29: the checked node by whether its value fits, the shifts as multiplication and floor division. -/
theorem datapathPrimitivesAreExact : Obligations.DatapathPrimitivesAreExact := by
  refine ⟨fun n v hlo hhi => chk_of_fits ⟨hlo, hhi⟩, fun n v hout => chk_of_not_fits (by omega), fun n v => ⟨?_, ?_, ?_⟩,
    fun n k v => rfl, fun k hk v => ⟨sar_bounds v k, sar_round_bounds v ?_⟩⟩
  · exact congrArg (chk n) (Int.mul_comm _ _)
  · exact congrArg (chk n) (Int.mul_comm _ _)
  · exact congrArg (chk n) (Int.mul_comm _ _)
  · simp only [List.mem_cons, List.not_mem_nil, or_false] at hk
    omega

/-! ### Both modes -/

theorem ok_bind {α β : Type} (a : α) (f : α → Except Fault β) : ((Except.ok a : Except Fault α) >>= f) = f a := rfl

/-- From the odd recombination on the two modes do the same but for the output shift (43 R139). -/
theorem lateStages_eq (shift : Nat) (t : ExactTerms) :
    (do
      let c ← recombineOdd (t.a0 + t.a1) (t.a0 - t.a1) t.c2 t.c3 ⟨t.b4, t.b5, t.b6, t.b7⟩
      let d ← stage3 c
      stage4 shift d) = guardAll t.lateChecks (.ok (t.sums.map (· / 2 ^ shift))) := by
  rw [recombineOdd_eq, guardAll_bind, ok_bind, stage3_eq, guardAll_bind, ok_bind, stage4_eq, ← guardAll_append,
    ← guardAll_append]
  rfl

/-- Row mode's general path: its 45 nodes, then its result (42 R112 to R117). -/
theorem rowGeneral_eq (x : Vector Int 8) : rowGeneral x = guardAll (rowGeneralChecks x) (.ok (rowGeneralExact x)) := by
  rw [rowGeneral, prescale_eq, guardAll_bind, ok_bind, stage1Row_eq, guardAll_bind, ok_bind, stage2Row_eq, guardAll_bind,
    rowGeneralChecks, guardAll_append, guardAll_append, guardAll_append]
  exact congrArg _ (congrArg _ (congrArg _ (lateStages_eq 8 (exactTermsRow x))))

/-- Column mode: its 48 nodes, then its result (43 R130 to R138). -/
theorem bflyCol_eq (x : Vector Int 8) : bflyCol x = guardAll (colChecks x) (.ok (colExact x)) := by
  rw [bflyCol, prescale_eq, guardAll_bind, ok_bind, stage1Col_eq, guardAll_bind, ok_bind, stage2Col_eq, guardAll_bind,
    colChecks, guardAll_append, guardAll_append, guardAll_append]
  exact congrArg _ (congrArg _ (congrArg _ (lateStages_eq 14 (exactTermsCol x))))

/-- Row mode by the path it takes (42 R110). -/
theorem bflyRow_eq (x : Vector Int 8) : bflyRow x = guardAll (rowChecks x) (.ok (rowExact x)) := by
  rw [bflyRow, rowChecks, rowExact]
  split_ifs
  · exact rowFast_eq x
  · exact rowGeneral_eq x

/-- Settles O30: row mode is its checks in front of its result. -/
theorem rowButterflyIsExact : Obligations.RowButterflyIsExact := bflyRow_eq

/-- Settles O31: column mode is its checks in front of its result. -/
theorem colButterflyIsExact : Obligations.ColButterflyIsExact := bflyCol_eq

/-! ### Legal rows and columns -/

theorem guardAll_of_none {α : Type} {l : List (Node × Int)} (h : firstOverflow l = none) (k : Except Fault α) :
    guardAll l k = k := by
  rw [guardAll, h]

theorem guardAll_of_some {α : Type} {l : List (Node × Int)} {n : Node} (h : firstOverflow l = some n)
    (k : Except Fault α) : guardAll l k = .error (.overflow n) := by
  rw [guardAll, h]

/-- A computation behind checks has a result only if every check fits, and then its own. -/
theorem guardAll_eq_ok {α : Type} {l : List (Node × Int)} {k : Except Fault α} {a : α} :
    guardAll l k = .ok a ↔ firstOverflow l = none ∧ k = .ok a := by
  cases h : firstOverflow l with
  | none => simp [guardAll_of_none h]
  | some n => simp [guardAll_of_some h]

theorem bflyRow_eq_ok {x y : Vector Int 8} : bflyRow x = .ok y ↔ RowLegal x ∧ y = rowExact x := by
  rw [bflyRow_eq, guardAll_eq_ok, Except.ok.injEq, RowLegal, eq_comm (a := y)]

theorem bflyCol_eq_ok {x y : Vector Int 8} : bflyCol x = .ok y ↔ ColLegal x ∧ y = colExact x := by
  rw [bflyCol_eq, guardAll_eq_ok, Except.ok.injEq, ColLegal, eq_comm (a := y)]

/-! ### Without AC entries -/

/-- A vector without AC entries, written out. -/
theorem eq_of_acZero {x : Vector Int 8} {k : Int} (hx : AcZero x) (hk : x[0] = k) : x = #v[k, 0, 0, 0, 0, 0, 0, 0] := by
  obtain ⟨h1, h2, h3, h4, h5, h6, h7⟩ := hx
  ext i hi
  match i, hi with
  | 0, _ => exact hk
  | 1, _ => exact h1
  | 2, _ => exact h2
  | 3, _ => exact h3
  | 4, _ => exact h4
  | 5, _ => exact h5
  | 6, _ => exact h6
  | 7, _ => exact h7

/-- What stages 2 to 4 are given by a DC entry alone. -/
def dcTerms (a0 : Int) : ExactTerms := ⟨a0, 0, 0, 0, 0, 0, 0, 0⟩

theorem exactTermsRow_dc (k : Int) : exactTermsRow #v[k, 0, 0, 0, 0, 0, 0, 0] = dcTerms (2048 * k + 128) := rfl

theorem exactTermsCol_dc (k : Int) : exactTermsCol #v[k, 0, 0, 0, 0, 0, 0, 0] = dcTerms (256 * k + 8192) := rfl

theorem sums_dcTerms (a0 : Int) : (dcTerms a0).sums = Vector.replicate 8 a0 := by
  simp [ExactTerms.sums, dcTerms, ExactTerms.d2, ExactTerms.d4, ExactTerms.s4, ExactTerms.s5]
  rfl

/-- With a DC entry alone every late node is 0, the value `a0`, or the bias of `g2` and `g4`. -/
theorem lateChecks_dcTerms {a0 : Int} (h : Fits a0) : firstOverflow (dcTerms a0).lateChecks = none := by
  rw [firstOverflow_eq_none]
  simp [ExactTerms.lateChecks, ExactTerms.sums, dcTerms, ExactTerms.s4, ExactTerms.s5, ExactTerms.d2, ExactTerms.d4]
  omega

/-- The prescale decides: nothing behind it overflows if the nodes behind it fit whenever `a0` does. -/
theorem firstOverflow_dc {scale bias k : Int} {l : List (Node × Int)}
    (hl : Fits (scale * k + bias) → firstOverflow l = none) :
    firstOverflow (prescaleChecks scale bias k 0 ++ l) =
      if Fits (scale * k) then if Fits (scale * k + bias) then none else some .a0 else some .p0 := by
  have h0 : Fits (scale * 0) := by rw [Int.mul_zero]; decide
  simp only [prescaleChecks, List.cons_append, List.nil_append, firstOverflow_cons, if_pos h0]
  split_ifs with hp ha
  · exact hl ha
  · rfl
  · rfl

/-- Row mode's general path with a DC entry alone. -/
theorem firstOverflow_rowGeneralChecks_dc (k : Int) :
    firstOverflow (rowGeneralChecks #v[k, 0, 0, 0, 0, 0, 0, 0]) =
      if Fits (2048 * k) then if Fits (2048 * k + 128) then none else some .a0 else some .p0 := by
  have hcut : rowGeneralChecks #v[k, 0, 0, 0, 0, 0, 0, 0] = prescaleChecks 2048 128 k 0 ++
      (rotationChecksRow 0 0 0 0 ++ evenChecksRow (2048 * k + 128) 0 0 0 ++ (dcTerms (2048 * k + 128)).lateChecks) := by
    simp only [rowGeneralChecks, List.append_assoc]
    rfl
  rw [hcut, firstOverflow_dc fun ha => ?_]
  rw [firstOverflow_append, lateChecks_dcTerms ha]
  rw [Option.or_none, firstOverflow_eq_none]
  simp [rotationChecksRow, evenChecksRow]
  omega

/-- Column mode with a DC entry alone. -/
theorem firstOverflow_colChecks_dc (k : Int) :
    firstOverflow (colChecks #v[k, 0, 0, 0, 0, 0, 0, 0]) =
      if Fits (256 * k) then if Fits (256 * k + 8192) then none else some .a0 else some .p0 := by
  have hcut : colChecks #v[k, 0, 0, 0, 0, 0, 0, 0] = prescaleChecks 256 8192 k 0 ++
      (rotationChecksCol 0 0 0 0 ++ evenChecksCol (256 * k + 8192) 0 0 0 ++ (dcTerms (256 * k + 8192)).lateChecks) := by
    simp only [colChecks, List.append_assoc]
    rfl
  rw [hcut, firstOverflow_dc fun ha => ?_]
  rw [firstOverflow_append, lateChecks_dcTerms ha]
  rw [Option.or_none, firstOverflow_eq_none]
  simp [rotationChecksCol, evenChecksCol]
  omega

theorem rowGeneralExact_dc (k : Int) :
    rowGeneralExact #v[k, 0, 0, 0, 0, 0, 0, 0] = Vector.replicate 8 (8 * k) := by
  rw [rowGeneralExact, exactTermsRow_dc, sums_dcTerms, Vector.map_replicate]
  congr 1
  omega

theorem colExact_dc (k : Int) : colExact #v[k, 0, 0, 0, 0, 0, 0, 0] = Vector.replicate 8 ((k + 32) / 64) := by
  rw [colExact, exactTermsCol_dc, sums_dcTerms, Vector.map_replicate]
  congr 1
  omega

/-- Settles O33: the prescale node `p0` fits in exactly the stated range, and there nothing else overflows; row mode's fast
path gives the same value. -/
theorem generalPathAgreesWithFastPath : Obligations.GeneralPathAgreesWithFastPath := by
  intro x k hx hk
  have hrow := fastPathShiftsTheDcEntry x k hx hk
  obtain rfl := eq_of_acZero hx hk
  refine ⟨fun hlo hhi => ?_, fun hout => ?_⟩
  · have hgeneral : rowGeneral #v[k, 0, 0, 0, 0, 0, 0, 0] = .ok (Vector.replicate 8 (8 * k)) := by
      rw [rowGeneral_eq, guardAll_of_none, rowGeneralExact_dc]
      rw [firstOverflow_rowGeneralChecks_dc, if_pos (by omega), if_pos (by omega)]
    exact ⟨hgeneral, (hrow.1 (by omega) (by omega)).trans hgeneral.symm⟩
  · rw [rowGeneral_eq]
    refine guardAll_of_some ?_ _
    rw [firstOverflow_rowGeneralChecks_dc, if_neg (by omega)]

/-- Settles O34: the two prescale nodes fit in exactly the stated ranges, and behind them nothing overflows. -/
theorem dcOnlyColumnRounds : Obligations.DcOnlyColumnRounds := by
  intro x k hx hk
  obtain rfl := eq_of_acZero hx hk
  rw [bflyCol_eq]
  refine ⟨fun hlo hhi => ?_, fun hlo hhi => guardAll_of_some ?_ _, fun hout => guardAll_of_some ?_ _⟩
  · rw [guardAll_of_none, colExact_dc]
    rw [firstOverflow_colChecks_dc, if_pos (by omega), if_pos (by omega)]
  · rw [firstOverflow_colChecks_dc, if_pos (by omega), if_neg (by omega)]
  · rw [firstOverflow_colChecks_dc, if_neg (by omega)]

end Sys2Proof.Machine
end

section
/-! SUPPORT. The micro-operations ROW and COL (spec 41_sequencer_microops.md R92, R93, R95): the two addressing modes do the
same, so each fact is stated once for an addressing mode and a butterfly; then the statements they settle. -/

namespace Sys2Proof.Machine

open Sys2Proof

/-- The first place without a value is the reads' fault (60 R168). -/
theorem readEight_of_first_none {s : State} {addr : Fin 8 → Fin 64} {j : Fin 8} (hj : entry s (addr j) = none)
    (hbelow : ∀ l < j, entry s (addr l) ≠ none) : readEight s.blk addr = .error (.uninitRead (addr j)) := by
  have hread := readEntry_of_none hj
  have hval : ∀ l < j, readEntry s.blk (addr l) = .ok ((entry s (addr l)).getD 0) := fun l hl => by
    obtain ⟨v, hv⟩ := Option.ne_none_iff_exists'.1 (hbelow l hl)
    rw [readEntry_of_entry hv, hv, Option.getD_some]
  match j with
  | 0 | 1 | 2 | 3 | 4 | 5 | 6 | 7 => simp [readEight, hread, hval, bind, Except.bind]

/-- A butterfly in place on eight defined entries without an overflow: the eight places hold the result, the sequencer
advances, and nothing else changes. -/
theorem butterflyInPlace_of_ok {addr : Fin 8 → Fin 64} {bfly : Vector Int 8 → Except Fault (Vector Int 8)} {s : State}
    {x y : Vector Int 8} (hinj : ∀ j l, addr j = addr l → j = l) (hx : HoldsEight s addr x) (hy : bfly x = .ok y)
    (hfits : ∀ j : Fin 8, Fits y[j]) :
    ∃ t, butterflyInPlace addr bfly s = .next t ∧ HoldsEight t addr y ∧
      (∀ n, (∀ j, n ≠ (addr j).val) → Memory.read t.blk n = Memory.read s.blk n) ∧
      t.seq = s.seq + 1#5 ∧ t.status = s.status ∧ t.resp = s.resp ∧ t.inputs = s.inputs := by
  refine ⟨_, butterflyInPlace_next.2 ⟨x, y, readEight_of_holds hx, hy, rfl⟩, fun j => ?_,
    fun n hn => read_writeEight_other hn, rfl, rfl, rfl, rfl⟩
  exact entry_eq_some.2 ⟨_, read_writeEight_same hinj j, toInt_ofInt_of_fits (hfits j)⟩

/-- Each of the eight results is one of the checked nodes `e0` to `e7`, shifted. -/
theorem sums_mem_lateChecks (t : ExactTerms) (j : Fin 8) : t.sums[j] ∈ t.lateChecks.map Prod.snd := by
  match j with
  | 0 | 1 | 2 | 3 | 4 | 5 | 6 | 7 => simp [ExactTerms.lateChecks]

/-- A node that fits still fits when it is shifted right. -/
theorem fits_ediv {v d : Int} (hd : 0 < d) (h : Fits v) : Fits (v / d) := by
  obtain ⟨hlo, hhi⟩ := h
  refine ⟨(Int.le_ediv_iff_mul_le hd).2 ?_, ?_⟩
  · nlinarith
  · exact Int.le_of_lt_add_one ((Int.ediv_lt_iff_lt_mul hd).2 (by nlinarith))

/-- The results of a legal row fit. -/
theorem RowLegal.fits_rowExact {x : Vector Int 8} (h : RowLegal x) (j : Fin 8) : Fits (rowExact x)[j] := by
  rw [RowLegal, rowChecks, firstOverflow_eq_none] at h
  rw [rowExact]
  split_ifs at h ⊢ with hx
  · have hf0 : Fits (8 * x[0]) := h _ (List.mem_singleton.2 rfl)
    simpa [fastExact] using hf0
  · obtain ⟨p, hp, hv⟩ := List.mem_map.1 (sums_mem_lateChecks (exactTermsRow x) j)
    have hsum : Fits (exactTermsRow x).sums[j] := hv ▸ h p (List.mem_append_right _ hp)
    simpa [rowGeneralExact] using fits_ediv (d := 256) (by decide) hsum

/-- The results of a legal column fit. -/
theorem ColLegal.fits_colExact {x : Vector Int 8} (h : ColLegal x) (j : Fin 8) : Fits (colExact x)[j] := by
  rw [ColLegal, firstOverflow_eq_none] at h
  obtain ⟨p, hp, hv⟩ := List.mem_map.1 (sums_mem_lateChecks (exactTermsCol x) j)
  have hsum : Fits (exactTermsCol x).sums[j] := hv ▸ h p (List.mem_append_right _ hp)
  simpa [colExact] using fits_ediv (d := 16384) (by decide) hsum

/-- Settles O25: row mode on a legal row gives its exact result, which fits, in place. -/
theorem rowTransformsItsRow : Obligations.RowTransformsItsRow := by
  intro r s x hx hlegal
  exact butterflyInPlace_of_ok (fun _ _ => rowIndex_injective) hx (bflyRow_eq_ok.2 ⟨hlegal, rfl⟩)
    (RowLegal.fits_rowExact hlegal)

/-- Settles O26: column mode on a legal column gives its exact result, which fits, in place. -/
theorem colTransformsItsColumn : Obligations.ColTransformsItsColumn := by
  intro c s x hx hlegal
  exact butterflyInPlace_of_ok (fun _ _ => colIndex_injective) hx (bflyCol_eq_ok.2 ⟨hlegal, rfl⟩)
    (ColLegal.fits_colExact hlegal)

/-- A butterfly in place on eight defined entries stops in the butterfly's fault (60 R168). -/
theorem butterflyInPlace_of_error {addr : Fin 8 → Fin 64} {bfly : Vector Int 8 → Except Fault (Vector Int 8)} {s : State}
    {x : Vector Int 8} {f : Fault} (hx : HoldsEight s addr x) (hf : bfly x = .error f) :
    butterflyInPlace addr bfly s = .fault f :=
  butterflyInPlace_fault.2 (.inr ⟨x, readEight_of_holds hx, hf⟩)

/-- Settles O28: the reads come first and stop at the lowest place without a value; then the butterfly's checks stop at the
first node that does not fit. -/
theorem microOpFaultsComeInOrder : Obligations.MicroOpFaultsComeInOrder := by
  refine fun k s => ⟨fun j hj hbelow => ?_, fun j hj hbelow => ?_, fun x n hx hn => ?_, fun x n hx hn => ?_⟩
  · exact butterflyInPlace_fault.2 (.inl (readEight_of_first_none hj hbelow))
  · exact butterflyInPlace_fault.2 (.inl (readEight_of_first_none hj hbelow))
  · exact butterflyInPlace_of_error hx ((bflyRow_eq x).trans (guardAll_of_some hn _))
  · exact butterflyInPlace_of_error hx ((bflyCol_eq x).trans (guardAll_of_some hn _))

end Sys2Proof.Machine
end

section
/-! SUPPORT. What every step keeps (spec 10_state.md R22 to R25, 41_sequencer_microops.md R93, R100, 60_exceptions.md R167):
the three agents' steps apart, the entries a step leaves defined, the invariant, then the statements they settle. -/

namespace Sys2Proof.Machine

open Sys2Proof

/-! ### Whose step it is -/

theorem not_engineMoves_of_resetMoves {s : State} (h : ResetMoves s) : ¬ EngineMoves s := by
  obtain ⟨rest, h⟩ := h
  simp [EngineMoves, h]

/-- What the engine's step does during a call: one row, one column, or the end. -/
theorem engine_busy_cases {s t : State} (hm : EngineMoves s) (hb : s.status.busy = true) (h : step s = .next t) :
    (∃ (k : Fin 8) (x y : Vector Int 8), s.seq = BitVec.ofNat 5 k.val ∧ HoldsEight s (rowIndex k) x ∧ bflyRow x = .ok y ∧
      t = { afterInput s with blk := writeEight s.blk (rowIndex k) y, seq := s.seq + 1#5 }) ∨
    (∃ (k : Fin 8) (x y : Vector Int 8), s.seq = BitVec.ofNat 5 (8 + k.val) ∧ HoldsEight s (colIndex k) x ∧
      bflyCol x = .ok y ∧ t = { afterInput s with blk := writeEight s.blk (colIndex k) y, seq := s.seq + 1#5 }) ∨
    (s.seq = 16#5 ∧ t = completeCall (afterInput s)) := by
  cases engine_step_cases hm h with
  | row _ _ k hk x y hx hy ht => exact .inl ⟨k, x, y, hk, hx, hy, ht⟩
  | col _ _ k hk x y hx hy ht => exact .inr (.inl ⟨k, x, y, hk, hx, hy, ht⟩)
  | complete _ _ hk ht => exact .inr (.inr ⟨hk, ht⟩)
  | idle _ hb' _ => cases hb.symm.trans hb'
  | reset hr _ => exact absurd hm (not_engineMoves_of_resetMoves hr)
  | respond _ hh _ _ _ _ _ => exact absurd hm (not_engineMoves_of_hostMoves hh)
  | write _ hh _ _ _ _ _ => exact absurd hm (not_engineMoves_of_hostMoves hh)
  | begin _ hh _ _ _ => exact absurd hm (not_engineMoves_of_hostMoves hh)
  | badLength _ hh _ _ _ _ _ => exact absurd hm (not_engineMoves_of_hostMoves hh)
  | clear _ hh _ _ _ => exact absurd hm (not_engineMoves_of_hostMoves hh)

theorem toNat_seq_row (k : Fin 8) : (BitVec.ofNat 5 k.val).toNat = k.val := by
  rw [BitVec.toNat_ofNat]; omega

theorem toNat_seq_col (k : Fin 8) : (BitVec.ofNat 5 (8 + k.val)).toNat = 8 + k.val := by
  rw [BitVec.toNat_ofNat]; omega

/-- Below 31 the sequencer counts without wrapping. -/
theorem toNat_seq_succ {u : BitVec 5} (h : u.toNat < 31) : (u + 1#5).toNat = u.toNat + 1 := by
  rw [BitVec.toNat_add, BitVec.toNat_ofNat]; omega

/-! ### Entries -/

theorem entry_of_blk_eq {s t : State} (h : t.blk = s.blk) (i : Fin 64) : entry t i = entry s i := by
  rw [entry, entry, h]

theorem isSome_entry {s : State} {i : Fin 64} : (entry s i).isSome = (Memory.read s.blk i.val).isSome :=
  Option.isSome_map

/-- A write leaves defined what was, and defines its place. -/
theorem isSome_read_write {m : Memory} {i n : Nat} {v : Word} (h : (Memory.read m n).isSome = true ∨ n = i) :
    (Memory.read (Memory.write m i v) n).isSome = true := by
  rw [read_write]
  split_ifs with hn
  · rfl
  · exact h.resolve_right hn

/-- Eight writes leave defined what was, and define their places. -/
theorem isSome_read_writeEight {m : Memory} {addr : Fin 8 → Fin 64} (hinj : ∀ j l, addr j = addr l → j = l)
    {y : Vector Int 8} {n : Nat} (h : (Memory.read m n).isSome = true ∨ ∃ j, n = (addr j).val) :
    (Memory.read (writeEight m addr y) n).isSome = true := by
  by_cases hn : ∃ j, n = (addr j).val
  · obtain ⟨j, rfl⟩ := hn
    rw [read_writeEight_same hinj]
    rfl
  · rw [read_writeEight_other fun j hj => hn ⟨j, hj⟩]
    exact h.resolve_right hn

/-- Settles O38: a step other than a reset leaves the buffer as it is or writes to it. -/
theorem definedEntriesStayDefined : Obligations.DefinedEntriesStayDefined := by
  intro s t i h hreset hi
  rw [isSome_entry] at hi ⊢
  cases step_cases h with
  | reset hr _ => exact absurd hr hreset
  | respond _ _ _ _ _ _ ht => subst ht; exact hi
  | write _ _ _ _ _ _ ht => subst ht; exact isSome_read_write (.inl hi)
  | begin _ _ _ _ ht => subst ht; exact hi
  | badLength _ _ _ _ _ _ ht => subst ht; exact hi
  | clear _ _ _ _ ht => subst ht; exact hi
  | idle _ _ ht => subst ht; exact hi
  | row _ _ _ _ _ _ _ _ ht => subst ht; exact isSome_read_writeEight (fun _ _ => rowIndex_injective) (.inl hi)
  | col _ _ _ _ _ _ _ _ ht => subst ht; exact isSome_read_writeEight (fun _ _ => colIndex_injective) (.inl hi)
  | complete _ _ _ ht => subst ht; exact hi

/-! ### The invariant -/

/-- Settles O35: nothing is defined, and STATUS and `seq` are 0. -/
theorem invariantHoldsAtReset : Obligations.InvariantHoldsAtReset where
  canonical := wf_reset
  shape := .inl rfl
  idleSeq := fun _ => rfl
  seqRange := Nat.zero_le _
  rowsDefined := fun hb => nomatch hb
  doneDefined := fun hd => nomatch hd
  errorNoData := fun _ hr => nomatch hr

/-- During a call STATUS is not DONE. -/
theorem StatusShape.not_done {st : Status} (h : StatusShape st) (hb : st.busy = true) : st.done = false := by
  rw [StatusShape.eq_running h hb, running_done]

/-- A command that writes neither the buffer, `seq` nor STATUS keeps the invariant if its response is in order. -/
theorem inv_respond {s : State} (hinv : Inv s) {r : Response} (hr : r.err = true → r.rdata = 0#32) :
    Inv { afterInput s with resp := some r } :=
  { hinv with errorNoData := fun r' hr' he => by cases hr'; exact hr he }

/-- A command that leaves no call running and the buffer as it is keeps the invariant, if it does not say DONE. -/
theorem inv_respond_status {s : State} (hinv : Inv s) (hb : s.status.busy = false) {st : Status} (hst : StatusShape st)
    (hbusy : st.busy = false) (hdone : st.done = false) :
    Inv { afterInput s with status := st, resp := some (Response.okay 0#32) } :=
  { hinv with
    shape := hst
    idleSeq := fun _ => hinv.idleSeq hb
    rowsDefined := fun hb' => by cases hb'.symm.trans hbusy
    doneDefined := fun hd => by cases hd.symm.trans hdone
    errorNoData := fun r hr he => by cases hr; cases he }

/-- A butterfly in place keeps the invariant if the rows below the next `seq` are then defined. -/
theorem inv_butterfly {s : State} (hinv : Inv s) (hb : s.status.busy = true) (hseq : s.seq.toNat < 16)
    (addr : Fin 8 → Fin 64) (y : Vector Int 8)
    (hrows : ∀ i : Fin 64, (rowOf i).val < s.seq.toNat + 1 →
      (Memory.read (writeEight s.blk addr y) i.val).isSome = true) :
    Inv { afterInput s with blk := writeEight s.blk addr y, seq := s.seq + 1#5 } :=
  { hinv with
    canonical := wf_writeEight addr y hinv.canonical
    idleSeq := fun hb' => by cases hb.symm.trans hb'
    seqRange := by rw [toNat_seq_succ (by omega)]; omega
    rowsDefined := fun _ i hi => by
      rw [toNat_seq_succ (by omega)] at hi
      rw [isSome_entry]
      exact hrows i hi
    doneDefined := fun hd => by cases hd.symm.trans (StatusShape.not_done hinv.shape hb) }

/-- Settles O36: by what the step has done. A row that has just been written is defined, and so are all rows when the call
ends; whatever else is defined stays so. -/
theorem everyStepKeepsTheInvariant : Obligations.EveryStepKeepsTheInvariant := by
  intro s t hinv h
  cases step_cases h with
  | reset _ ht => subst ht; exact { invariantHoldsAtReset with }
  | respond _ _ r hr _ _ ht => subst ht; exact inv_respond hinv hr
  | write w _ hb i v _ ht =>
    subst ht
    exact { hinv with
      canonical := wf_write i v hinv.canonical
      rowsDefined := fun hb' => by cases hb'.symm.trans hb
      doneDefined := fun hd n => by
        rw [isSome_entry]
        exact isSome_read_write (.inl (isSome_entry.symm.trans (hinv.doneDefined hd n)))
      errorNoData := fun r hr he => by cases hr; cases he }
  | begin _ _ _ _ ht =>
    subst ht
    exact { hinv with
      shape := .inr (.inl rfl)
      idleSeq := fun hb => by cases hb
      seqRange := Nat.zero_le _
      rowsDefined := fun _ i hi => absurd hi (Nat.not_lt_zero _)
      doneDefined := fun hd => by cases hd
      errorNoData := fun r hr he => by cases hr; cases he }
  | badLength _ _ hb len hl _ ht =>
    subst ht
    exact inv_respond_status hinv hb (.inr (.inr (.inr ⟨len, hl, rfl⟩))) rfl rfl
  | clear _ _ hb _ ht => subst ht; exact inv_respond_status hinv hb (.inl rfl) rfl rfl
  | idle _ _ ht => subst ht; exact { hinv with }
  | row _ hb k hk x y _ _ ht =>
    subst ht
    have hseq : s.seq.toNat = k.val := by rw [hk, toNat_seq_row]
    refine inv_butterfly hinv hb (by omega) _ y fun i hi => isSome_read_writeEight (fun _ _ => rowIndex_injective) ?_
    by_cases hik : rowOf i = k
    · exact .inr ⟨colOf i, by rw [← hik, rowIndex_rowOf_colOf]⟩
    · have hlt : (rowOf i).val < s.seq.toNat := by
        have := Fin.val_ne_of_ne hik
        omega
      exact .inl (isSome_entry.symm.trans (hinv.rowsDefined hb i hlt))
  | col _ hb k hk x y _ _ ht =>
    subst ht
    have hseq : s.seq.toNat = 8 + k.val := by rw [hk, toNat_seq_col]
    refine inv_butterfly hinv hb (by omega) _ y fun i _ => isSome_read_writeEight (fun _ _ => colIndex_injective) (.inl ?_)
    exact isSome_entry.symm.trans (hinv.rowsDefined hb i (by omega))
  | complete _ hb hk ht =>
    subst ht
    have hall (i : Fin 64) : (entry s i).isSome = true :=
      hinv.rowsDefined hb i (by rw [hk]; exact (rowOf i).isLt.trans (by decide))
    exact { hinv with
      shape := .inr (.inr (.inl rfl))
      idleSeq := fun _ => rfl
      seqRange := Nat.zero_le _
      rowsDefined := fun hb' => by cases hb'
      doneDefined := fun _ => hall }

/-! ### What the invariant excludes -/

/-- Checks in front of a result fail by an overflow only. -/
theorem guardAll_ok_eq_error {α : Type} {l : List (Node × Int)} {a : α} {f : Fault} (h : guardAll l (.ok a) = .error f) :
    ∃ n, f = .overflow n := by
  cases hl : firstOverflow l with
  | none => rw [guardAll_of_none hl] at h; cases h
  | some n => rw [guardAll_of_some hl] at h; cases h; exact ⟨n, rfl⟩

theorem bflyCol_error {x : Vector Int 8} {f : Fault} (h : bflyCol x = .error f) : ∃ n, f = .overflow n :=
  guardAll_ok_eq_error ((bflyCol_eq x).symm.trans h)

/-- A butterfly in place that stops in UninitRead has a place without a value. -/
theorem butterflyInPlace_uninitRead {addr : Fin 8 → Fin 64} {bfly : Vector Int 8 → Except Fault (Vector Int 8)}
    (hbfly : ∀ x f, bfly x = .error f → ∃ n, f = .overflow n) {s : State} {i : Fin 64}
    (h : butterflyInPlace addr bfly s = .fault (.uninitRead i)) : ∃ j, entry s (addr j) = none := by
  rcases butterflyInPlace_fault.1 h with hread | ⟨x, -, hx⟩
  · rcases readEight_cases s addr with ⟨x, -, hok⟩ | ⟨j, hj, -⟩
    · cases hok.symm.trans hread
    · exact ⟨j, hj⟩
  · obtain ⟨n, hn⟩ := hbfly x _ hx
    cases hn

/-- Settles O37: from `seq` 8 on all rows are done, so every entry is defined and a column's reads cannot fault. -/
theorem columnsReadOnlyDefinedEntries : Obligations.ColumnsReadOnlyDefinedEntries := by
  intro s hinv hm hb hseq i hfault
  rcases decodeMicroOp_cases s.seq with ⟨k, hk, -⟩ | ⟨k, -, hd⟩ | ⟨-, hd⟩ | ⟨hge, -⟩
  · rw [hk, toNat_seq_row] at hseq
    omega
  · rw [step_of_decodeMicroOp hm hb hd, exec_col] at hfault
    obtain ⟨j, hj⟩ := butterflyInPlace_uninitRead (fun _ _ => bflyCol_error) hfault
    have hdef := hinv.rowsDefined hb (colIndex k j) (by omega)
    rw [← entry_of_blk_eq (afterInput_blk s), hj] at hdef
    cases hdef
  · rw [step_of_decodeMicroOp hm hb hd, exec_endCall] at hfault
    cases hfault
  · have := hinv.seqRange
    omega

/-- The host's step is never a refusal. -/
theorem host_step_not_refused {w : BitVec 40} {s : State} (hm : HostMoves w s) (r : Refusal) : step s ≠ .refused r := by
  intro h
  cases hc : busCause w s.status.busy with
  | some cause => rw [step_of_busCause hm hc] at h; cases h
  | none =>
    rcases step_okay_or_fault hm hc with ⟨v, u, hs⟩ | ⟨f, hs⟩
    · cases hs.symm.trans h
    · cases hs.symm.trans h

/-- The engine's step is no refusal while `seq` is in its range. -/
theorem engine_step_not_refused {s : State} (hm : EngineMoves s) (hseq : s.status.busy = true → s.seq.toNat ≤ 16)
    (r : Refusal) : step s ≠ .refused r := by
  intro h
  cases hb : s.status.busy with
  | false => rw [step_idle hm hb] at h; cases h
  | true =>
    rcases decodeMicroOp_cases s.seq with ⟨k, -, hd⟩ | ⟨k, -, hd⟩ | ⟨-, hd⟩ | ⟨hge, -⟩
    · exact butterflyInPlace_not_refused ((step_of_decodeMicroOp hm hb hd).symm.trans h)
    · exact butterflyInPlace_not_refused ((step_of_decodeMicroOp hm hb hd).symm.trans h)
    · cases (step_of_decodeMicroOp hm hb hd).symm.trans h
    · have := hseq hb
      omega

/-- Settles O39: by whose move it is. -/
theorem noReachableStateIsRefused : Obligations.NoReachableStateIsRefused := by
  intro s hinv r
  rcases moves_cases s with hm | ⟨w, hm⟩ | hm
  · exact engine_step_not_refused hm (fun _ => hinv.seqRange) r
  · exact host_step_not_refused hm r
  · rw [step_resetAll hm]
    exact (nomatch ·)

/-! ### Who changes what -/

/-- What a host command does to `seq` (41 R100). -/
theorem host_step_seq {s t : State} {w : BitVec 40} (hm : HostMoves w s) (h : step s = .next t) :
    t.seq = if s.status.busy = false ∧ decodeCommand w = .ok (.start 64#8) then 0#5 else s.seq := by
  have other {i : Instr} (hd : decodeCommand w = .ok i) (hi : i ≠ .start 64#8) :
      ¬ (s.status.busy = false ∧ decodeCommand w = .ok (.start 64#8)) := fun ⟨_, hs⟩ =>
    hi (Except.ok.inj (hd.symm.trans hs))
  cases host_step_cases hm h with
  | respond w' hm' _ _ _ hn ht =>
    obtain rfl := hostMoves_word_unique hm hm'
    subst ht
    exact (if_neg fun ⟨hb, hd⟩ => hn hb hd).symm
  | write w' hm' _ _ _ hd ht =>
    obtain rfl := hostMoves_word_unique hm hm'
    subst ht
    exact (if_neg (other hd (nomatch ·))).symm
  | begin w' hm' hb hd ht =>
    obtain rfl := hostMoves_word_unique hm hm'
    subst ht
    exact (if_pos ⟨hb, hd⟩).symm
  | badLength w' hm' _ len hl hd ht =>
    obtain rfl := hostMoves_word_unique hm hm'
    subst ht
    exact (if_neg (other hd fun he => hl (Instr.start.inj he))).symm
  | clear w' hm' _ hd ht =>
    obtain rfl := hostMoves_word_unique hm hm'
    subst ht
    exact (if_neg (other hd (nomatch ·))).symm
  | reset hr _ => exact absurd hr (not_resetMoves_of_hostMoves hm)
  | idle he _ _ => exact absurd he (not_engineMoves_of_hostMoves hm)
  | row he _ _ _ _ _ _ _ _ => exact absurd he (not_engineMoves_of_hostMoves hm)
  | col he _ _ _ _ _ _ _ _ => exact absurd he (not_engineMoves_of_hostMoves hm)
  | complete he _ _ _ => exact absurd he (not_engineMoves_of_hostMoves hm)

/-- What the engine does to `seq` during a call (41 R100). -/
theorem engine_busy_seq {s t : State} (hm : EngineMoves s) (hb : s.status.busy = true) (h : step s = .next t) :
    (s.seq.toNat < 16 ∧ t.seq = s.seq + 1#5) ∨ (s.seq.toNat = 16 ∧ t.seq = 0#5) := by
  rcases engine_busy_cases hm hb h with ⟨k, x, y, hk, -, -, rfl⟩ | ⟨k, x, y, hk, -, -, rfl⟩ | ⟨hk, rfl⟩
  · exact .inl ⟨by rw [hk, toNat_seq_row]; omega, rfl⟩
  · exact .inl ⟨by rw [hk, toNat_seq_col]; omega, rfl⟩
  · exact .inr ⟨by rw [hk]; rfl, rfl⟩

/-- Settles O40: by whose move it is, and for the engine by `seq`. -/
theorem seqChangesOnlyAsListed : Obligations.SeqChangesOnlyAsListed := by
  refine fun s t h => ⟨fun hm => ?_, fun w hm => host_step_seq hm h, fun hm hb => ?_, fun hm hb hlt => ?_,
    fun hm hb heq => ?_⟩
  · rw [step_resetAll hm] at h
    cases h
    rfl
  · rw [step_idle hm hb] at h
    cases h
    rfl
  · rcases engine_busy_seq hm hb h with ⟨-, ht⟩ | ⟨h16, -⟩
    · exact ht
    · omega
  · rcases engine_busy_seq hm hb h with ⟨hlt, -⟩ | ⟨-, ht⟩
    · omega
    · exact ht

/-- Settles O41: of all that a step can have done, five things write STATUS. -/
theorem statusChangesOnlyByItsWriters : Obligations.StatusChangesOnlyByItsWriters := by
  intro s t h hne
  cases step_cases h with
  | reset hr _ => exact .inl hr
  | begin w hm hb hd _ => exact .inr (.inl ⟨hb, w, _, hm, hd, .inr ⟨_, rfl⟩⟩)
  | badLength w hm hb len _ hd _ => exact .inr (.inl ⟨hb, w, _, hm, hd, .inr ⟨len, rfl⟩⟩)
  | clear w hm hb hd _ => exact .inr (.inl ⟨hb, w, _, hm, hd, .inl rfl⟩)
  | complete hm hb hk _ => exact .inr (.inr ⟨hb, hm, hk⟩)
  | respond _ _ _ _ _ _ ht => subst ht; exact absurd rfl hne
  | write _ _ _ _ _ _ ht => subst ht; exact absurd rfl hne
  | idle _ _ ht => subst ht; exact absurd rfl hne
  | row _ _ _ _ _ _ _ _ ht => subst ht; exact absurd rfl hne
  | col _ _ _ _ _ _ _ _ ht => subst ht; exact absurd rfl hne

/-- Only a place among the eight is changed by eight writes. -/
theorem exists_addr_of_read_writeEight_ne {m : Memory} {addr : Fin 8 → Fin 64} {y : Vector Int 8} {n : Nat}
    (h : Memory.read (writeEight m addr y) n ≠ Memory.read m n) : ∃ j, n = (addr j).val := by
  by_contra hn
  exact h (read_writeEight_other fun j hj => hn ⟨j, hj⟩)

/-- Settles O42: of all that a step can have done, four things write the buffer, each at its own places. -/
theorem entriesChangeOnlyByTheirOwner : Obligations.EntriesChangeOnlyByTheirOwner := by
  intro s t n h hne
  cases step_cases h with
  | reset hr _ => exact .inl hr
  | write w hm hb i v hd ht =>
    subst ht
    refine .inr (.inl ⟨hb, w, i, v, hm, hd, ?_⟩)
    by_contra hn
    exact hne (read_write_other s.blk v (Ne.symm hn))
  | row hm hb k hk x y _ _ ht =>
    subst ht
    obtain ⟨j, hj⟩ := exists_addr_of_read_writeEight_ne hne
    exact .inr (.inr ⟨hb, hm, k, j, .inl ⟨by rw [hk, toNat_seq_row], hj⟩⟩)
  | col hm hb k hk x y _ _ ht =>
    subst ht
    obtain ⟨j, hj⟩ := exists_addr_of_read_writeEight_ne hne
    exact .inr (.inr ⟨hb, hm, k, j, .inr ⟨by rw [hk, toNat_seq_col], hj⟩⟩)
  | respond _ _ _ _ _ _ ht => subst ht; exact absurd rfl hne
  | begin _ _ _ _ ht => subst ht; exact absurd rfl hne
  | badLength _ _ _ _ _ _ ht => subst ht; exact absurd rfl hne
  | clear _ _ _ _ ht => subst ht; exact absurd rfl hne
  | idle _ _ ht => subst ht; exact absurd rfl hne
  | complete _ _ _ ht => subst ht; exact absurd rfl hne

end Sys2Proof.Machine
end

section
/-! SUPPORT. A call (spec 41_sequencer_microops.md R91, R96, R97): the sixteen butterflies of a block one after the other,
the state of a running call, then what a call of a legal block and of an illegal one does. -/

namespace Sys2Proof.Machine

open Sys2Proof

/-! ### The sixteen butterflies -/

/-- The butterfly at `seq = k` of a call of `B` does not overflow. -/
def LegalAt (B : Block) (k : Nat) : Prop :=
  (∀ r : Fin 8, k = r.val → RowLegal (B.row r)) ∧ ∀ c : Fin 8, k = 8 + c.val → ColLegal ((rowPass B).col c)

/-- A block is legal if its sixteen butterflies are. -/
theorem legalBlock_iff (B : Block) : LegalBlock B ↔ ∀ k < 16, LegalAt B k := by
  constructor
  · rintro ⟨hrow, hcol⟩ k _
    exact ⟨fun r _ => hrow r, fun c _ => hcol c⟩
  · intro h
    exact ⟨fun r => (h r.val (by omega)).1 r rfl, fun c => (h (8 + c.val) (by omega)).2 c rfl⟩

theorem legalAt_row {B : Block} (r : Fin 8) : LegalAt B r.val ↔ RowLegal (B.row r) := by
  refine ⟨fun h => h.1 r rfl, fun h => ⟨fun r' hr => ?_, fun c hc => ?_⟩⟩
  · exact Fin.ext hr ▸ h
  · omega

theorem legalAt_col {B : Block} (c : Fin 8) : LegalAt B (8 + c.val) ↔ ColLegal ((rowPass B).col c) := by
  refine ⟨fun h => h.2 c rfl, fun h => ⟨fun r hr => ?_, fun c' hc => ?_⟩⟩
  · omega
  · exact Fin.ext (Nat.add_left_cancel hc) ▸ h

/-! ### The mixture a running call holds (R97) -/

theorem midCall_of_le {B : Block} {k : Nat} (hk : k ≤ 8) (i : Fin 64) :
    midCall B k i = if (rowOf i).val < k then rowPass B i else B i := if_pos hk

theorem midCall_col (B : Block) (c : Nat) (i : Fin 64) :
    midCall B (8 + c) i = if (colOf i).val < c then idct B i else rowPass B i := by
  rcases Nat.eq_zero_or_pos c with rfl | hc
  · rw [midCall_of_le (Nat.le_refl 8), if_pos (rowOf i).isLt, if_neg (Nat.not_lt_zero _)]
  · rw [midCall, if_neg (by omega), Nat.add_sub_cancel_left]

theorem midCall_zero (B : Block) : midCall B 0 = B := by
  funext i
  rw [midCall_of_le (Nat.zero_le 8), if_neg (Nat.not_lt_zero _)]

theorem midCall_sixteen (B : Block) : midCall B 16 = idct B := by
  funext i
  rw [show (16 : Nat) = 8 + 8 from rfl, midCall_col, if_pos (colOf i).isLt]

theorem getElem_row (B : Block) (r j : Fin 8) : (B.row r)[j] = B (rowIndex r j) := by
  simp [Block.row]

theorem getElem_col (B : Block) (c j : Fin 8) : (B.col c)[j] = B (colIndex c j) := by
  simp [Block.col]

/-- Before `ROW r` its row is the block's. -/
theorem holdsEight_row {B : Block} {s : State} {r : Fin 8} (h : Holds s (midCall B r.val)) :
    HoldsEight s (rowIndex r) (B.row r) := fun j => by
  rw [h, midCall_of_le (by omega), rowOf_rowIndex, if_neg (Nat.lt_irrefl _), getElem_row]

/-- Before `COL c` its column is the row pass's. -/
theorem holdsEight_col {B : Block} {s : State} {c : Fin 8} (h : Holds s (midCall B (8 + c.val))) :
    HoldsEight s (colIndex c) ((rowPass B).col c) := fun j => by
  rw [h, midCall_col, colOf_colIndex, if_neg (Nat.lt_irrefl _), getElem_col]

theorem rowPass_rowIndex (B : Block) (r j : Fin 8) : rowPass B (rowIndex r j) = (rowExact (B.row r))[j] := by
  simp only [rowPass, rowOf_rowIndex, colOf_rowIndex]

theorem idct_colIndex (B : Block) (c j : Fin 8) : idct B (colIndex c j) = (colExact ((rowPass B).col c))[j] := by
  simp only [idct, colPass, colOf_colIndex, rowOf_colIndex]

/-- `ROW r` changes row `r` of the mixture alone. -/
theorem midCall_succ_row {B : Block} {r : Fin 8} {i : Fin 64} (hi : rowOf i ≠ r) :
    midCall B (r.val + 1) i = midCall B r.val i := by
  have := Fin.val_ne_of_ne hi
  rw [midCall_of_le (by omega), midCall_of_le (by omega)]
  by_cases hlt : (rowOf i).val < r.val
  · rw [if_pos hlt, if_pos (by omega)]
  · rw [if_neg hlt, if_neg (by omega)]

/-- `COL c` changes column `c` of the mixture alone. -/
theorem midCall_succ_col {B : Block} {c : Fin 8} {i : Fin 64} (hi : colOf i ≠ c) :
    midCall B (8 + c.val + 1) i = midCall B (8 + c.val) i := by
  have := Fin.val_ne_of_ne hi
  rw [Nat.add_assoc, midCall_col, midCall_col]
  by_cases hlt : (colOf i).val < c.val
  · rw [if_pos hlt, if_pos (by omega)]
  · rw [if_neg hlt, if_neg (by omega)]

/-- A buffer that holds a block still holds a block that differs at eight places alone, once these have been written. -/
theorem holds_of_eight {s t : State} {addr : Fin 8 → Fin 64} {y : Vector Int 8} {A B : Block} (hs : Holds s A)
    (hy : HoldsEight t addr y) (hframe : ∀ n, (∀ j, n ≠ (addr j).val) → Memory.read t.blk n = Memory.read s.blk n)
    (hat : ∀ j, B (addr j) = y[j]) (hother : ∀ i, (∀ j, i ≠ addr j) → B i = A i) : Holds t B := by
  intro i
  by_cases hi : ∃ j, i = addr j
  · obtain ⟨j, rfl⟩ := hi
    rw [hy j, hat j]
  · have hne (j : Fin 8) : i ≠ addr j := fun h => hi ⟨j, h⟩
    rw [hother i hne, ← hs i, entry, entry, hframe i.val fun j h => hne j (Fin.ext h)]

/-! ### The steps of a running call -/

/-- Every step takes the first input, if there is one. -/
theorem step_inputs {s t : State} (h : step s = .next t) : t.inputs = s.inputs.tail := by
  cases step_cases h with
  | reset _ ht => subst ht; rfl
  | respond _ _ _ _ _ _ ht => subst ht; rfl
  | write _ _ _ _ _ _ ht => subst ht; rfl
  | begin _ _ _ _ ht => subst ht; rfl
  | badLength _ _ _ _ _ _ ht => subst ht; rfl
  | clear _ _ _ _ ht => subst ht; rfl
  | idle _ _ ht => subst ht; rfl
  | row _ _ _ _ _ _ _ _ ht => subst ht; rfl
  | col _ _ _ _ _ _ _ _ ht => subst ht; rfl
  | complete _ _ _ ht => subst ht; rfl

/-- The engine's step of a running call below END, if its butterfly does not overflow. -/
theorem callRunning_step {B : Block} {s : State} (h : CallRunning B s) (hm : EngineMoves s) (hlt : s.seq.toNat < 16)
    (hlegal : LegalAt B s.seq.toNat) : ∃ t, step s = .next t ∧ CallRunning B t ∧ t.seq = s.seq + 1#5 := by
  obtain ⟨hst, -, hblk⟩ := h
  have hb : s.status.busy = true := by rw [hst]; rfl
  have hsucc := toNat_seq_succ (u := s.seq) (by omega)
  rcases decodeMicroOp_cases s.seq with ⟨k, hk, hd⟩ | ⟨k, hk, hd⟩ | ⟨h16, -⟩ | ⟨hge, -⟩
  · have hval : s.seq.toNat = k.val := by rw [hk, toNat_seq_row]
    rw [hval] at hlegal hblk hsucc
    obtain ⟨t, ht, hy, hframe, hseq, hstatus, -, -⟩ := rowTransformsItsRow k (afterInput s) (B.row k)
      (holdsEight_row hblk) ((legalAt_row k).1 hlegal)
    refine ⟨t, (step_of_decodeMicroOp hm hb hd).trans ht, ⟨hstatus.trans hst, ?_, ?_⟩, hseq⟩
    · rw [hseq, afterInput_seq, hsucc]; omega
    · rw [hseq, afterInput_seq, hsucc]
      refine holds_of_eight hblk hy hframe (fun j => ?_) fun i hi => midCall_succ_row fun hr => ?_
      · rw [midCall_of_le (by omega), rowOf_rowIndex, if_pos (Nat.lt_succ_self _), rowPass_rowIndex]
      · exact hi (colOf i) (by rw [← hr, rowIndex_rowOf_colOf])
  · have hval : s.seq.toNat = 8 + k.val := by rw [hk, toNat_seq_col]
    rw [hval] at hlegal hblk hsucc
    obtain ⟨t, ht, hy, hframe, hseq, hstatus, -, -⟩ := colTransformsItsColumn k (afterInput s) ((rowPass B).col k)
      (holdsEight_col hblk) ((legalAt_col k).1 hlegal)
    refine ⟨t, (step_of_decodeMicroOp hm hb hd).trans ht, ⟨hstatus.trans hst, ?_, ?_⟩, hseq⟩
    · rw [hseq, afterInput_seq, hsucc]; omega
    · rw [hseq, afterInput_seq, hsucc]
      refine holds_of_eight hblk hy hframe (fun j => ?_) fun i hi => midCall_succ_col fun hc => ?_
      · rw [Nat.add_assoc, midCall_col, colOf_colIndex, if_pos (Nat.lt_succ_self _), idct_colIndex]
      · exact hi (rowOf i) (by rw [← hc, colIndex_colOf_rowOf])
  · rw [h16] at hlt
    exact absurd hlt (by decide)
  · omega

/-- The engine's step of a running call whose butterfly overflows (60 R166). -/
theorem callRunning_overflow {B : Block} {s : State} (h : CallRunning B s) (hm : EngineMoves s)
    (hlegal : ¬ LegalAt B s.seq.toNat) : ∃ n, step s = .fault (.overflow n) := by
  obtain ⟨hst, hle, hblk⟩ := h
  have hb : s.status.busy = true := by rw [hst]; rfl
  rcases decodeMicroOp_cases s.seq with ⟨k, hk, hd⟩ | ⟨k, hk, hd⟩ | ⟨h16, -⟩ | ⟨hge, -⟩
  · have hval : s.seq.toNat = k.val := by rw [hk, toNat_seq_row]
    rw [hval] at hlegal hblk
    obtain ⟨n, hn⟩ := Option.ne_none_iff_exists'.1 (mt (legalAt_row k).2 hlegal)
    exact ⟨n, (step_of_decodeMicroOp hm hb hd).trans
      ((microOpFaultsComeInOrder k (afterInput s)).2.2.1 _ n (holdsEight_row hblk) hn)⟩
  · have hval : s.seq.toNat = 8 + k.val := by rw [hk, toNat_seq_col]
    rw [hval] at hlegal hblk
    obtain ⟨n, hn⟩ := Option.ne_none_iff_exists'.1 (mt (legalAt_col k).2 hlegal)
    exact ⟨n, (step_of_decodeMicroOp hm hb hd).trans
      ((microOpFaultsComeInOrder k (afterInput s)).2.2.2 _ n (holdsEight_col hblk) hn)⟩
  · refine absurd ⟨fun r hr => ?_, fun c hc => ?_⟩ hlegal
    · rw [h16] at hr
      have : r.val = 16 := hr.symm
      omega
    · rw [h16] at hc
      have : 8 + c.val = 16 := hc.symm
      omega
  · omega

/-- END of a running call. -/
theorem callRunning_end {B : Block} {s : State} (h : CallRunning B s) (hm : EngineMoves s) (h16 : s.seq.toNat = 16) :
    ∃ t, step s = .next t ∧ CallDone B t := by
  obtain ⟨hst, -, hblk⟩ := h
  have hb : s.status.busy = true := by rw [hst]; rfl
  rw [h16, midCall_sixteen] at hblk
  have hseq : s.seq = 16#5 := BitVec.eq_of_toNat_eq h16
  exact ⟨completeCall (afterInput s), endCompletesTheCall.2.1 s hm hb hseq, rfl, rfl, hblk⟩

/-- A host command during a call. -/
theorem callRunning_host {B : Block} {s : State} {w : BitVec 40} (h : CallRunning B s) (hm : HostMoves w s) :
    ∃ t, step s = .next t ∧ CallRunning B t ∧ t.seq = s.seq := by
  obtain ⟨r, hs⟩ := host_step_busy hm (by rw [h.status]; rfl)
  exact ⟨_, hs, ⟨h.status, h.range, h.block⟩, rfl⟩

/-- Settles O43: by whose move it is; the engine's is the next of the sixteen legal butterflies, or END. -/
theorem runningCallAdvancesToItsResult : Obligations.RunningCallAdvancesToItsResult := by
  intro B s hlegal hrun hreset
  rcases moves_cases s with hm | ⟨w, hm⟩ | hm
  · have hhost (w : BitVec 40) : ¬ HostMoves w s := fun hh => not_engineMoves_of_hostMoves hh hm
    rcases Nat.lt_or_ge s.seq.toNat 16 with hlt | hge
    · obtain ⟨t, ht, hrun', hseq⟩ := callRunning_step hrun hm hlt ((legalBlock_iff B).1 hlegal _ hlt)
      exact ⟨t, ht, fun _ _ => ⟨hrun', hseq⟩, fun _ h16 => by omega, fun w hh => absurd hh (hhost w)⟩
    · obtain ⟨t, ht, hdone⟩ := callRunning_end hrun hm (Nat.le_antisymm hrun.range hge)
      exact ⟨t, ht, fun _ hlt => by omega, fun _ _ => hdone, fun w hh => absurd hh (hhost w)⟩
  · obtain ⟨t, ht, hrun', hseq⟩ := callRunning_host hrun hm
    have hengine := not_engineMoves_of_hostMoves hm
    exact ⟨t, ht, fun he => absurd he hengine, fun he => absurd he hengine, fun _ _ => ⟨hrun', hseq⟩⟩
  · exact absurd hm hreset

/-! ### A call with nothing else pending -/

/-- The state once an accepted `START 64` has been answered. -/
def afterStart (s : State) : State := { beginCall (afterInput s) with resp := some (Response.okay 0#32) }

@[simp] theorem afterStart_blk (s : State) : (afterStart s).blk = s.blk := rfl
@[simp] theorem afterStart_seq (s : State) : (afterStart s).seq = 0#5 := rfl
@[simp] theorem afterStart_status (s : State) : (afterStart s).status = Status.running := rfl
@[simp] theorem afterStart_inputs (s : State) : (afterStart s).inputs = s.inputs.tail := rfl

/-- `START 64` outside a call begins one (40 R74). -/
theorem step_start {s : State} {l : List Input} (hb : s.status.busy = false)
    (hin : s.inputs = .command 0xC000004001#40 :: l) : step s = .next (afterStart s) := by
  have hd : decodeCommand 0xC000004001#40 = .ok (.start 64#8) := rfl
  rw [step_of_decodeCommand ⟨l, hin⟩ hd, exec_start_free_legal (busy_afterInput hb), respondOkay_eq, afterStart]

/-- The call that begins holds the block as it is. -/
theorem callRunning_afterStart {B : Block} {s : State} (h : Holds s B) : CallRunning B (afterStart s) where
  status := rfl
  range := Nat.zero_le _
  block := by
    rw [afterStart_seq, BitVec.toNat_zero, midCall_zero]
    exact h

/-- A running call of a legal block with nothing pending, `m` steps on. -/
theorem callRunning_runSteps {B : Block} (hlegal : LegalBlock B) (m : Nat) {s : State} (h : CallRunning B s)
    (hin : s.inputs = []) (hm : s.seq.toNat + m ≤ 16) :
    ∃ t, runSteps m s = .next t ∧ CallRunning B t ∧ t.seq.toNat = s.seq.toNat + m ∧ t.inputs = [] := by
  induction m generalizing s with
  | zero => exact ⟨s, rfl, h, rfl, hin⟩
  | succ m ih =>
    obtain ⟨u, hu, hrun, hseq⟩ := callRunning_step h (.inl hin) (by omega) ((legalBlock_iff B).1 hlegal _ (by omega))
    have hsucc : u.seq.toNat = s.seq.toNat + 1 := by rw [hseq, toNat_seq_succ (by omega)]
    obtain ⟨t, ht, hrun', hseq', hin'⟩ := ih hrun (by rw [step_inputs hu, hin]; rfl) (by omega)
    exact ⟨t, (runSteps_succ_next hu).trans ht, hrun', by omega, hin'⟩

/-- Settles O44: START, the sixteen legal butterflies, END. -/
theorem callComputesIdct : Obligations.CallComputesIdct := by
  intro B s hlegal hblk hb hin
  have hstart := step_start hb hin
  have hrun := callRunning_afterStart hblk
  have hempty : (afterStart s).inputs = [] := by rw [afterStart_inputs, hin, List.tail_cons]
  have hseq : (afterStart s).seq.toNat = 0 := rfl
  refine ⟨fun n hn => ?_, ?_⟩
  · obtain ⟨u, hu, hrun', -, -⟩ := callRunning_runSteps hlegal n hrun hempty (by omega)
    exact ⟨u, (runSteps_succ_next hstart).trans hu, hrun'.status⟩
  · obtain ⟨u, hu, hrun', hseq', hempty'⟩ := callRunning_runSteps hlegal 16 hrun hempty (by omega)
    obtain ⟨t, ht, hdone⟩ := callRunning_end hrun' (.inl hempty') (by omega)
    refine ⟨t, ?_, by rw [hdone.status, completed_word], hdone.seq, hdone.block⟩
    rw [runSteps_succ_next hstart, runSteps_add_next (n := 1) hu, runSteps_succ_next ht, runSteps_zero]

/-- A running call with nothing pending stops at the first of its butterflies that overflows. -/
theorem callRunning_runSteps_overflow {B : Block} {k : Nat} (hk : k < 16) (hlegal : ¬ LegalAt B k) (m : Nat) {s : State}
    (h : CallRunning B s) (hin : s.inputs = []) (hle : s.seq.toNat ≤ k) (hm : s.seq.toNat + m = 16) :
    ∃ n, runSteps m s = .fault (.overflow n) := by
  induction m generalizing s with
  | zero => omega
  | succ m ih =>
    by_cases hat : LegalAt B s.seq.toNat
    · obtain ⟨u, hu, hrun, hseq⟩ := callRunning_step h (.inl hin) (by omega) hat
      have hsucc : u.seq.toNat = s.seq.toNat + 1 := by rw [hseq, toNat_seq_succ (by omega)]
      have hne : s.seq.toNat ≠ k := fun he => hlegal (he ▸ hat)
      obtain ⟨n, hn⟩ := ih hrun (by rw [step_inputs hu, hin]; rfl) (by omega) (by omega)
      exact ⟨n, (runSteps_succ_next hu).trans hn⟩
    · obtain ⟨n, hn⟩ := callRunning_overflow h (.inl hin) hat
      exact ⟨n, runSteps_succ_fault hn⟩

/-- Settles O45: one of the sixteen butterflies is not legal, and the call does not get past it. -/
theorem illegalBlockEndsInOverflow : Obligations.IllegalBlockEndsInOverflow := by
  intro B s hlegal hblk hb hin
  rw [legalBlock_iff] at hlegal
  push Not at hlegal
  obtain ⟨k, hk, hat⟩ := hlegal
  have hempty : (afterStart s).inputs = [] := by rw [afterStart_inputs, hin, List.tail_cons]
  obtain ⟨n, hn⟩ := callRunning_runSteps_overflow hk hat 16 (callRunning_afterStart hblk) hempty (Nat.zero_le k) rfl
  exact ⟨n, (runSteps_succ_next (step_start hb hin)).trans (runSteps_add_fault (n := 1) hn)⟩

end Sys2Proof.Machine
end

section
/-! SUPPORT. Calls whatever the host does (spec 00_scope.md R6, 41_sequencer_microops.md R90, R97, R98; 70_reset_and_hazards.md
R192): an unwritten entry, two runs of one block, the number of engine steps, the order inside a pass. -/

namespace Sys2Proof.Machine

open Sys2Proof

/-! ### A call of a block with an unwritten entry -/

/-- A call that has not reached the row of an entry without a value, and no reset pending. -/
structure BeforeUnwritten (i : Fin 64) (s : State) : Prop where
  status : s.status = Status.running
  unwritten : entry s i = none
  below : s.seq.toNat ≤ (rowOf i).val
  noReset : Input.reset ∉ s.inputs

/-- What is left to be done before the call stops, at most: the pending inputs and the rows. -/
def stepsBound (s : State) : Nat := s.inputs.length + (8 - s.seq.toNat)

/-- Each step of such a call stops it or brings it closer to its stop. -/
theorem beforeUnwritten_step {i : Fin 64} {s : State} (h : BeforeUnwritten i s) :
    (∃ f, step s = .fault f) ∨ ∃ t, step s = .next t ∧ BeforeUnwritten i t ∧ stepsBound t < stepsBound s := by
  obtain ⟨hst, hnone, hbelow, hreset⟩ := h
  have hb : s.status.busy = true := by rw [hst]; rfl
  have hrow := (rowOf i).isLt
  have htail {t : State} (ht : step s = .next t) : Input.reset ∉ t.inputs := by
    rw [step_inputs ht]
    exact fun hmem => hreset (List.mem_of_mem_tail hmem)
  rcases moves_cases s with hm | ⟨w, hm⟩ | ⟨rest, hin⟩
  · cases ht : step s with
    | fault f => exact .inl ⟨f, rfl⟩
    | refused r => exact absurd ht (engine_step_not_refused hm (fun _ => by omega) r)
    | next t =>
      refine .inr ⟨t, rfl, ?_⟩
      rcases engine_busy_cases hm hb ht with ⟨k, x, y, hk, hx, -, rfl⟩ | ⟨k, -, -, hk, -⟩ | ⟨hk, -⟩
      · have hseq : s.seq.toNat = k.val := by rw [hk, toNat_seq_row]
        have hsucc := toNat_seq_succ (u := s.seq) (by omega)
        have hne : rowOf i ≠ k := by
          rintro rfl
          have := hx (colOf i)
          rw [rowIndex_rowOf_colOf, hnone] at this
          cases this
        have hne' := Fin.val_ne_of_ne hne
        refine ⟨⟨hst, ?_, ?_, htail ht⟩, ?_⟩
        · rw [entry, read_writeEight_other, ← entry, hnone]
          intro j hj
          exact hne (by rw [Fin.ext hj, rowOf_rowIndex])
        · change (s.seq + 1#5).toNat ≤ _
          omega
        · change s.inputs.tail.length + (8 - (s.seq + 1#5).toNat) < s.inputs.length + (8 - s.seq.toNat)
          rw [List.length_tail]
          omega
      · rw [hk, toNat_seq_col] at hbelow
        omega
      · rw [hk] at hbelow
        have : 16 ≤ (rowOf i).val := hbelow
        omega
  · obtain ⟨r, ht⟩ := host_step_busy hm hb
    obtain ⟨rest, hin⟩ := hm
    refine .inr ⟨_, ht, ⟨hst, hnone, hbelow, htail ht⟩, ?_⟩
    change s.inputs.tail.length + _ < s.inputs.length + _
    rw [hin, List.tail_cons, List.length_cons]
    exact Nat.add_lt_add_right (Nat.lt_succ_self _) _
  · exact absurd (by rw [hin]; exact List.mem_cons_self) hreset

/-- Every state such a run reaches is BUSY. -/
theorem beforeUnwritten_runSteps {i : Fin 64} {n : Nat} {s t : State} (h : BeforeUnwritten i s)
    (ht : runSteps n s = .next t) : BeforeUnwritten i t := by
  induction n generalizing s with
  | zero => cases ht; exact h
  | succ n ih =>
    rcases beforeUnwritten_step h with ⟨f, hf⟩ | ⟨u, hu, hu', -⟩
    · rw [runSteps_succ_fault hf] at ht; cases ht
    · exact ih hu' ((runSteps_succ_next hu).symm.trans ht)

/-- Such a run ends in a fault within its bound. -/
theorem beforeUnwritten_faults {i : Fin 64} {n : Nat} {s : State} (h : BeforeUnwritten i s) (hn : stepsBound s < n) :
    ∃ f, runSteps n s = .fault f := by
  induction n generalizing s with
  | zero => omega
  | succ n ih =>
    rcases beforeUnwritten_step h with ⟨f, hf⟩ | ⟨u, hu, hu', hlt⟩
    · exact ⟨f, runSteps_succ_fault hf⟩
    · obtain ⟨f, hf⟩ := ih hu' (by omega)
      exact ⟨f, (runSteps_succ_next hu).trans hf⟩

/-- Settles O46: the call that begins has not reached the entry's row, and cannot pass it. -/
theorem unwrittenEntryStopsTheCall : Obligations.UnwrittenEntryStopsTheCall := by
  intro s i l hnone hb hin hreset
  have hstart := step_start hb hin
  have htail : (afterStart s).inputs = l := by rw [afterStart_inputs, hin, List.tail_cons]
  have h : BeforeUnwritten i (afterStart s) := ⟨rfl, hnone, Nat.zero_le _, by rwa [htail]⟩
  refine ⟨fun n t ht => ?_, ?_⟩
  · exact (beforeUnwritten_runSteps h ((runSteps_succ_next hstart).symm.trans ht)).status
  · have hbound : stepsBound (afterStart s) < l.length + 17 := by
      rw [stepsBound, htail, afterStart_seq, BitVec.toNat_zero]
      omega
    obtain ⟨f, hf⟩ := beforeUnwritten_faults h hbound
    exact ⟨f, (runSteps_succ_next hstart).trans hf⟩

/-! ### Two runs of one block -/

/-- Two states agree in all that a call reads and writes. -/
structure SameEngine (s s' : State) : Prop where
  blk : s.blk = s'.blk
  seq : s.seq = s'.seq
  status : s.status = s'.status

/-- A butterfly in place depends on the buffer and `seq` alone. -/
theorem butterflyInPlace_sameCall {addr : Fin 8 → Fin 64} {bfly : Vector Int 8 → Except Fault (Vector Int 8)} {s s' : State}
    (h : SameEngine s s') : SameCall (butterflyInPlace addr bfly s) (butterflyInPlace addr bfly s') := by
  obtain ⟨hblk, hseq, hstatus⟩ := h
  unfold butterflyInPlace
  rw [← hblk]
  cases readEight s.blk addr with
  | error f => rfl
  | ok x =>
    cases hy : bfly x with
    | error f => simp only [hy]; rfl
    | ok y => simp only [hy, hseq]; exact ⟨rfl, rfl, hstatus⟩

/-- So does the engine's step. -/
theorem engine_step_sameCall {s s' : State} (h : SameEngine s s') (hm : EngineMoves s) (hm' : EngineMoves s') :
    SameCall (step s) (step s') := by
  have hafter : SameEngine (afterInput s) (afterInput s') := ⟨h.blk, h.seq, h.status⟩
  cases hb : s.status.busy with
  | false =>
    rw [step_idle hm hb, step_idle hm' (h.status ▸ hb)]
    exact ⟨h.blk, h.seq, h.status⟩
  | true =>
    have hb' : s'.status.busy = true := h.status ▸ hb
    have hsame {i : Instr} (hd : decodeMicroOp s.seq = .ok i) (he : SameCall (exec i (afterInput s)) (exec i (afterInput s'))) :
        SameCall (step s) (step s') := by
      rwa [step_of_decodeMicroOp hm hb hd, step_of_decodeMicroOp hm' hb' (h.seq ▸ hd)]
    rcases decodeMicroOp_cases s.seq with ⟨k, -, hd⟩ | ⟨k, -, hd⟩ | ⟨-, hd⟩ | ⟨hge, -⟩
    · exact hsame hd (butterflyInPlace_sameCall hafter)
    · exact hsame hd (butterflyInPlace_sameCall hafter)
    · exact hsame hd ⟨h.blk, rfl, rfl⟩
    · rw [step_reservedMicroOp hm hb hge, step_reservedMicroOp hm' hb' (h.seq ▸ hge), h.seq]
      rfl

/-- Two runs of agreeing states go on alike if their first steps agree. -/
theorem sameCall_succ {s s' : State} {n n' : Nat} (h : SameCall (step s) (step s'))
    (hnext : ∀ t t', step s = .next t → step s' = .next t' → SameEngine t t' → SameCall (runSteps n t) (runSteps n' t')) :
    SameCall (runSteps (n + 1) s) (runSteps (n' + 1) s') := by
  cases hs : step s with
  | next t =>
    cases hs' : step s' with
    | next t' =>
      rw [hs, hs'] at h
      obtain ⟨hblk, hseq, hstatus⟩ := h
      rw [runSteps_succ_next hs, runSteps_succ_next hs']
      exact hnext t t' hs hs' ⟨hblk, hseq, hstatus⟩
    | fault f' => rw [hs, hs'] at h; exact h.elim
    | refused r' => rw [hs, hs'] at h; exact h.elim
  | fault f =>
    cases hs' : step s' with
    | fault f' => rw [runSteps_succ_fault hs, runSteps_succ_fault hs']; rwa [hs, hs'] at h
    | next t' => rw [hs, hs'] at h; exact h.elim
    | refused r' => rw [hs, hs'] at h; exact h.elim
  | refused r =>
    cases hs' : step s' with
    | refused r' => rw [runSteps_succ_refused hs, runSteps_succ_refused hs']; rwa [hs, hs'] at h
    | next t' => rw [hs, hs'] at h; exact h.elim
    | fault f' => rw [hs, hs'] at h; exact h.elim

/-- With nothing pending two agreeing states run alike. -/
theorem sameCall_runSteps (k : Nat) {s s' : State} (h : SameEngine s s') (hin : s.inputs = []) (hin' : s'.inputs = []) :
    SameCall (runSteps k s) (runSteps k s') := by
  induction k generalizing s s' with
  | zero => exact ⟨h.blk, h.seq, h.status⟩
  | succ k ih =>
    refine sameCall_succ (engine_step_sameCall h (.inl hin) (.inl hin')) fun t t' ht ht' hsame => ih hsame ?_ ?_
    · rw [step_inputs ht, hin]; rfl
    · rw [step_inputs ht', hin']; rfl

/-- Below END the engine's step leaves the call running. -/
theorem engine_step_running {s t : State} (hm : EngineMoves s) (hb : s.status.busy = true) (hlt : s.seq.toNat < 16)
    (h : step s = .next t) : t.status.busy = true ∧ t.seq.toNat = s.seq.toNat + 1 := by
  have hsucc := toNat_seq_succ (u := s.seq) (by omega)
  rcases engine_busy_cases hm hb h with ⟨_, _, _, -, -, -, rfl⟩ | ⟨_, _, _, -, -, -, rfl⟩ | ⟨hk, -⟩
  · exact ⟨hb, hsucc⟩
  · exact ⟨hb, hsucc⟩
  · rw [hk] at hlt
    exact absurd hlt (by decide)

/-- A run with commands and engine turns pending agrees with a run of as many engine turns alone. -/
theorem sameCall_of_pending (k : Nat) (l : List Input) {s s' : State} (h : SameEngine s s') (hb : s.status.busy = true)
    (hin : s.inputs = l) (hin' : s'.inputs = []) (hreset : Input.reset ∉ l)
    (hcount : s.seq.toNat + l.count .engineTurn ≤ 16) :
    SameCall (runSteps (l.length + k) s) (runSteps (l.count .engineTurn + k) s') := by
  induction l generalizing s s' with
  | nil => simpa using sameCall_runSteps k h hin hin'
  | cons m l ih =>
    have hreset' : Input.reset ∉ l := fun hmem => hreset (List.mem_cons_of_mem _ hmem)
    rw [List.length_cons, Nat.succ_add]
    cases m with
    | reset => exact absurd List.mem_cons_self hreset
    | command w =>
      rw [List.count_cons_of_ne (by simp)] at hcount ⊢
      obtain ⟨r, ht⟩ := host_step_busy ⟨l, hin⟩ hb
      rw [runSteps_succ_next ht]
      exact ih ⟨h.blk, h.seq, h.status⟩ hb (by simp [hin]) hin' hreset' hcount
    | engineTurn =>
      rw [List.count_cons_self] at hcount ⊢
      rw [Nat.succ_add]
      have hm : EngineMoves s := .inr ⟨l, hin⟩
      refine sameCall_succ (engine_step_sameCall h hm (.inl hin')) fun t t' ht ht' hsame => ?_
      obtain ⟨hb', hseq⟩ := engine_step_running hm hb (by omega) ht
      exact ih hsame hb' (by rw [step_inputs ht, hin]; rfl) (by rw [step_inputs ht', hin']; rfl) hreset' (by omega)

/-- Settles O47: after the two STARTs the states agree, and then so do the runs. -/
theorem callDependsOnlyOnTheBlock : Obligations.CallDependsOnlyOnTheBlock := by
  intro s s' l k hblk hb hb' hin hin' hreset hcount
  rw [Nat.add_right_comm, Nat.add_right_comm (l.count _), runSteps_succ_next (step_start hb hin),
    runSteps_succ_next (step_start hb' hin')]
  refine sameCall_of_pending k l ⟨hblk, rfl, rfl⟩ rfl (by simp [hin]) (by simp [hin']) hreset ?_
  rw [afterStart_seq, BitVec.toNat_zero, Nat.zero_add]
  exact hcount

/-! ### The number of engine steps -/

/-- A running call of the invariant with nothing pending, `m` steps before its end. -/
theorem completes_or_faults (m : Nat) {s : State} (hinv : Inv s) (hb : s.status.busy = true) (hin : s.inputs = [])
    (hm : s.seq.toNat + m = 16) :
    (∃ t, runSteps (m + 1) s = .next t ∧ t.status = Status.completed ∧ t.seq = 0#5) ∨
      ∃ f, runSteps (m + 1) s = .fault f := by
  have hengine : EngineMoves s := .inl hin
  cases ht : step s with
  | fault f => exact .inr ⟨f, runSteps_succ_fault ht⟩
  | refused r => exact absurd ht (noReachableStateIsRefused s hinv r)
  | next t =>
    rw [runSteps_succ_next ht]
    cases m with
    | zero =>
      have hseq : s.seq = 16#5 := BitVec.eq_of_toNat_eq hm
      rw [endCompletesTheCall.2.1 s hengine hb hseq, exec_endCall] at ht
      cases ht
      exact .inl ⟨_, rfl, rfl, rfl⟩
    | succ m =>
      obtain ⟨hb', hseq⟩ := engine_step_running hengine hb (by omega) ht
      exact completes_or_faults m (everyStepKeepsTheInvariant s t hinv ht) hb' (by rw [step_inputs ht, hin]; rfl) (by omega)

/-- Settles O48: `16 - seq` butterflies, then END, unless one of them stops the run. -/
theorem callTakesSeventeenEngineSteps : Obligations.CallTakesSeventeenEngineSteps := by
  intro s hinv hb hin
  have hle := hinv.seqRange
  rw [show 17 - s.seq.toNat = 16 - s.seq.toNat + 1 by omega]
  exact completes_or_faults _ hinv hb hin (by omega)

/-! ### The order inside a pass -/

/-- The eight reads depend on their places alone. -/
theorem readEight_congr {m m' : Memory} {addr : Fin 8 → Fin 64}
    (h : ∀ j, Memory.read m (addr j).val = Memory.read m' (addr j).val) : readEight m addr = readEight m' addr := by
  simp only [readEight, readEntry, h]

section
variable {addr addr' : Fin 8 → Fin 64}

/-- Writes at disjoint places commute on a canonical buffer. -/
theorem writeEight_comm (hdisj : ∀ j l, addr j ≠ addr' l) (hinj : ∀ j l, addr j = addr l → j = l)
    (hinj' : ∀ j l, addr' j = addr' l → j = l) {m : Memory} (hm : Memory.wf m = true) (y y' : Vector Int 8) :
    writeEight (writeEight m addr y) addr' y' = writeEight (writeEight m addr' y') addr y := by
  have hleft := wf_writeEight addr' y' (wf_writeEight addr y hm)
  have hright := wf_writeEight addr y (wf_writeEight addr' y' hm)
  refine eq_of_read_eq (lo := 0) hleft hright fun n => ?_
  by_cases hn : ∃ j, n = (addr j).val
  · obtain ⟨j, rfl⟩ := hn
    rw [read_writeEight_same hinj, read_writeEight_other fun l hl => hdisj j l (Fin.ext hl), read_writeEight_same hinj]
  · have hout (j : Fin 8) : n ≠ (addr j).val := fun hj => hn ⟨j, hj⟩
    rw [read_writeEight_other (addr := addr) hout]
    by_cases hn' : ∃ j, n = (addr' j).val
    · obtain ⟨j, rfl⟩ := hn'
      rw [read_writeEight_same hinj', read_writeEight_same hinj']
    · have hout' (j : Fin 8) : n ≠ (addr' j).val := fun hj => hn' ⟨j, hj⟩
      rw [read_writeEight_other hout', read_writeEight_other hout', read_writeEight_other hout]

/-- Two butterflies at disjoint places that complete one after the other complete in the other order as well, with the
same state. -/
theorem butterflyInPlace_comm {bfly : Vector Int 8 → Except Fault (Vector Int 8)} (hdisj : ∀ j l, addr j ≠ addr' l)
    (hinj : ∀ j l, addr j = addr l → j = l) (hinj' : ∀ j l, addr' j = addr' l → j = l) {s t u : State}
    (hm : Memory.wf s.blk = true) (ht : butterflyInPlace addr bfly s = .next t)
    (hu : butterflyInPlace addr' bfly t = .next u) :
    ∃ v, butterflyInPlace addr' bfly s = .next v ∧ butterflyInPlace addr bfly v = .next u := by
  obtain ⟨x, y, hx, hy, rfl⟩ := butterflyInPlace_next.1 ht
  obtain ⟨x', y', hx', hy', rfl⟩ := butterflyInPlace_next.1 hu
  have hread' : readEight s.blk addr' = .ok x' := by
    rw [← hx']
    exact readEight_congr fun l => (read_writeEight_other fun j hj => hdisj j l (Fin.ext hj.symm)).symm
  refine ⟨_, butterflyInPlace_next.2 ⟨x', y', hread', hy', rfl⟩, butterflyInPlace_next.2 ⟨x, y, ?_, hy, ?_⟩⟩
  · rw [← hx]
    exact readEight_congr fun j => read_writeEight_other fun l hl => hdisj j l (Fin.ext hl)
  · rw [writeEight_comm hdisj hinj hinj' hm]

end

/-- Settles O49: two rows share no entry, and no more do two columns. -/
theorem butterfliesOfOnePassCommute : Obligations.ButterfliesOfOnePassCommute := by
  refine fun k l s t u hkl hm => ⟨?_, ?_⟩
  · have hdisj (i j : Fin 8) (hij : rowIndex k i = rowIndex l j) : False :=
      hkl (by rw [← rowOf_rowIndex k i, hij, rowOf_rowIndex])
    simp only [exec_row]
    exact butterflyInPlace_comm hdisj (fun _ _ => rowIndex_injective) (fun _ _ => rowIndex_injective) hm
  · have hdisj (i j : Fin 8) (hij : colIndex k i = colIndex l j) : False :=
      hkl (by rw [← colOf_colIndex k i, hij, colOf_colIndex])
    simp only [exec_col]
    exact butterflyInPlace_comm hdisj (fun _ _ => colIndex_injective) (fun _ _ => colIndex_injective) hm

end Sys2Proof.Machine
end

section
/-! SUPPORT. How large the nodes of a butterfly can get (spec 70_reset_and_hazards.md R199): each node is bounded by a
weighted sum of the magnitudes of the eight inputs, and a handful of weighted sums bounds them all. -/

namespace Sys2Proof

open Machine

/-! ### Weighted sums of magnitudes -/

/-- The sum of the magnitudes of eight integers, each with its weight. -/
def magnitude (w : Vector Nat 8) (x : Vector Int 8) : Nat := ∑ j : Fin 8, w[j] * (x[j]).natAbs

theorem magnitude_eq (w : Vector Nat 8) (x : Vector Int 8) :
    magnitude w x = w[0] * (x[0]).natAbs + w[1] * (x[1]).natAbs + w[2] * (x[2]).natAbs + w[3] * (x[3]).natAbs +
      w[4] * (x[4]).natAbs + w[5] * (x[5]).natAbs + w[6] * (x[6]).natAbs + w[7] * (x[7]).natAbs := by
  rw [magnitude, Fin.sum_univ_eight]
  rfl

/-- A weighted sum, with an allowance for biases and roundings, that must stay within a limit. -/
structure Bound where
  weights : Vector Nat 8
  allowance : Nat

/-- Every one of the weighted sums stays within the limit. -/
def Within (limit : Nat) (bounds : List Bound) (x : Vector Int 8) : Prop :=
  ∀ b ∈ bounds, magnitude b.weights x + b.allowance ≤ limit

/-- The sums that bound the nodes of a row: those behind the even and the odd part together, once for `c3` and once for
`c2`, `g2`, `g4`, and `m2`. -/
def rowBounds : List Bound :=
  [ ⟨#v[2048, 3406, 2676, 4017, 2048, 4017, 1108, 3406], 129⟩,
    ⟨#v[2048, 3406, 1108, 4017, 2048, 4017, 2676, 3406], 129⟩,
    ⟨#v[0, 181 * 3406, 0, 181 * 799, 0, 181 * 4017, 0, 181 * 2276], 128⟩,
    ⟨#v[0, 181 * 2276, 0, 181 * 4017, 0, 181 * 799, 0, 181 * 3406], 128⟩,
    ⟨#v[0, 0, 0, 0, 0, 0, 3784, 0], 0⟩ ]

/-- The sums that bound the nodes of a column, eight times as large, since column mode shifts its rotations by 3; `u2` and
`u3` are not shifted yet. -/
def colBounds : List Bound :=
  [ ⟨#v[2048, 3406, 2676, 4017, 2048, 4017, 1108, 3406], 65564⟩,
    ⟨#v[2048, 3406, 1108, 4017, 2048, 4017, 2676, 3406], 65564⟩,
    ⟨#v[0, 181 * 3406, 0, 181 * 799, 0, 181 * 4017, 0, 181 * 2276], 3920⟩,
    ⟨#v[0, 181 * 2276, 0, 181 * 4017, 0, 181 * 799, 0, 181 * 3406], 3920⟩,
    ⟨#v[0, 0, 0, 0, 0, 0, 8 * 3784, 0], 0⟩,
    ⟨#v[0, 0, 8 * 1108, 0, 0, 0, 8 * 2676, 0], 32⟩,
    ⟨#v[0, 0, 8 * 2676, 0, 0, 0, 8 * 1108, 0], 32⟩ ]

/-- The largest value of a node (R8). -/
def nodeMax : Nat := 2147483647

/-! ### The late nodes -/

theorem bounds_of_natAbs_le {v : Int} {n : Nat} (h : v.natAbs ≤ n) : -(n : Int) ≤ v ∧ v ≤ n := by omega

/-- The magnitudes of the four rotated odd terms together. -/
def ExactTerms.oddMagnitude (t : ExactTerms) : Nat := t.b4.natAbs + t.b5.natAbs + t.b6.natAbs + t.b7.natAbs

theorem ExactTerms.oddMagnitude_eq (t : ExactTerms) :
    t.oddMagnitude = t.b4.natAbs + t.b5.natAbs + t.b6.natAbs + t.b7.natAbs := rfl

theorem ExactTerms.natAbs_oddSums (t : ExactTerms) :
    (t.b4 + t.b6).natAbs ≤ t.oddMagnitude ∧ (t.b4 - t.b6).natAbs ≤ t.oddMagnitude ∧
      (t.b5 + t.b7).natAbs ≤ t.oddMagnitude ∧ (t.b5 - t.b7).natAbs ≤ t.oddMagnitude := by
  rw [oddMagnitude]
  refine ⟨?_, ?_, ?_, ?_⟩ <;> omega

/-- `R2` is less than 256, so `d2` and `d4` are no larger than the odd terms together, but for the rounding. -/
theorem ExactTerms.natAbs_d2_le (t : ExactTerms) : t.d2.natAbs ≤ t.oddMagnitude + 1 := by
  have hs4 : t.s4.natAbs ≤ t.oddMagnitude := by rw [s4, oddMagnitude]; omega
  rw [d2]
  omega

theorem ExactTerms.natAbs_d4_le (t : ExactTerms) : t.d4.natAbs ≤ t.oddMagnitude + 1 := by
  have hs5 : t.s5.natAbs ≤ t.oddMagnitude := by rw [s5, oddMagnitude]; omega
  rw [d4]
  omega

/-- The nodes from the odd recombination on fit if four sums of the terms' magnitudes do. -/
theorem lateChecks_fit {t : ExactTerms} (h3 : t.a0.natAbs + t.a1.natAbs + t.c3.natAbs + t.oddMagnitude + 1 ≤ nodeMax)
    (h2 : t.a0.natAbs + t.a1.natAbs + t.c2.natAbs + t.oddMagnitude + 1 ≤ nodeMax)
    (hs4 : 181 * t.s4.natAbs + 128 ≤ nodeMax) (hs5 : 181 * t.s5.natAbs + 128 ≤ nodeMax) :
    ∀ p ∈ t.lateChecks, Fits p.2 := by
  obtain ⟨hc1, hc4, hc6, hc5⟩ := t.natAbs_oddSums
  have hsum := bounds_of_natAbs_le (Int.natAbs_add_le t.a0 t.a1)
  have hdiff := bounds_of_natAbs_le (Int.natAbs_sub_le t.a0 t.a1)
  have hc1 := bounds_of_natAbs_le hc1
  have hc4 := bounds_of_natAbs_le hc4
  have hc6 := bounds_of_natAbs_le hc6
  have hc5 := bounds_of_natAbs_le hc5
  have hd2 := bounds_of_natAbs_le t.natAbs_d2_le
  have hd4 := bounds_of_natAbs_le t.natAbs_d4_le
  have hc2 := bounds_of_natAbs_le (Nat.le_refl t.c2.natAbs)
  have hc3 := bounds_of_natAbs_le (Nat.le_refl t.c3.natAbs)
  have hs4' := bounds_of_natAbs_le (Nat.le_refl t.s4.natAbs)
  have hs5' := bounds_of_natAbs_le (Nat.le_refl t.s5.natAbs)
  rw [nodeMax] at h3 h2 hs4 hs5
  generalize t.a0.natAbs + t.a1.natAbs = A at *
  generalize t.c2.natAbs = C2 at *
  generalize t.c3.natAbs = C3 at *
  generalize t.s4.natAbs = S4 at *
  generalize t.s5.natAbs = S5 at *
  generalize t.oddMagnitude = S at *
  simp only [ExactTerms.lateChecks, ExactTerms.sums, List.forall_mem_cons, Vector.getElem_mk, List.getElem_toArray,
    List.getElem_cons_zero, List.getElem_cons_succ, List.not_mem_nil, false_implies, implies_true, and_true]
  refine ⟨?_, ?_, ?_, ?_, ?_, ?_, ?_, ?_, ?_, ?_, ?_, ?_, ?_, ?_, ?_, ?_, ?_, ?_, ?_, ?_, ?_, ?_⟩ <;> omega

/-! ### The terms of stage 2 by the inputs' magnitudes -/

section
variable (x0 x1 x2 x3 x4 x5 x6 x7 : Int)

theorem rowTerms_magnitudes :
    (rowTerms x0 x1 x2 x3 x4 x5 x6 x7).a0.natAbs ≤ 2048 * x0.natAbs + 128 ∧
    (rowTerms x0 x1 x2 x3 x4 x5 x6 x7).a1.natAbs ≤ 2048 * x4.natAbs ∧
    (rowTerms x0 x1 x2 x3 x4 x5 x6 x7).c2.natAbs ≤ 1108 * x2.natAbs + 2676 * x6.natAbs ∧
    (rowTerms x0 x1 x2 x3 x4 x5 x6 x7).c3.natAbs ≤ 2676 * x2.natAbs + 1108 * x6.natAbs := by
  simp only [rowTerms]
  refine ⟨?_, ?_, ?_, ?_⟩ <;> omega

theorem rowTerms_odd_magnitudes :
    (rowTerms x0 x1 x2 x3 x4 x5 x6 x7).b4.natAbs ≤ 2841 * x1.natAbs + 565 * x7.natAbs ∧
    (rowTerms x0 x1 x2 x3 x4 x5 x6 x7).b5.natAbs ≤ 565 * x1.natAbs + 2841 * x7.natAbs ∧
    (rowTerms x0 x1 x2 x3 x4 x5 x6 x7).b6.natAbs ≤ 1609 * x5.natAbs + 2408 * x3.natAbs ∧
    (rowTerms x0 x1 x2 x3 x4 x5 x6 x7).b7.natAbs ≤ 2408 * x5.natAbs + 1609 * x3.natAbs := by
  simp only [rowTerms]
  refine ⟨?_, ?_, ?_, ?_⟩ <;> omega

/-- The two sums that `R2` scales: the rotations' coefficients add up or cancel. -/
theorem rowTerms_scaled_magnitudes :
    (rowTerms x0 x1 x2 x3 x4 x5 x6 x7).s4.natAbs ≤
      3406 * x1.natAbs + 799 * x3.natAbs + 4017 * x5.natAbs + 2276 * x7.natAbs ∧
    (rowTerms x0 x1 x2 x3 x4 x5 x6 x7).s5.natAbs ≤
      2276 * x1.natAbs + 4017 * x3.natAbs + 799 * x5.natAbs + 3406 * x7.natAbs := by
  simp only [rowTerms, ExactTerms.s4, ExactTerms.s5]
  refine ⟨?_, ?_⟩ <;> omega

theorem colTerms_magnitudes :
    8 * (colTerms x0 x1 x2 x3 x4 x5 x6 x7).a0.natAbs ≤ 2048 * x0.natAbs + 65536 ∧
    8 * (colTerms x0 x1 x2 x3 x4 x5 x6 x7).a1.natAbs ≤ 2048 * x4.natAbs ∧
    8 * (colTerms x0 x1 x2 x3 x4 x5 x6 x7).c2.natAbs ≤ 1108 * x2.natAbs + 2676 * x6.natAbs + 4 ∧
    8 * (colTerms x0 x1 x2 x3 x4 x5 x6 x7).c3.natAbs ≤ 2676 * x2.natAbs + 1108 * x6.natAbs + 4 := by
  simp only [colTerms]
  refine ⟨?_, ?_, ?_, ?_⟩ <;> omega

theorem colTerms_odd_magnitudes :
    8 * (colTerms x0 x1 x2 x3 x4 x5 x6 x7).b4.natAbs ≤ 2841 * x1.natAbs + 565 * x7.natAbs + 4 ∧
    8 * (colTerms x0 x1 x2 x3 x4 x5 x6 x7).b5.natAbs ≤ 565 * x1.natAbs + 2841 * x7.natAbs + 4 ∧
    8 * (colTerms x0 x1 x2 x3 x4 x5 x6 x7).b6.natAbs ≤ 1609 * x5.natAbs + 2408 * x3.natAbs + 4 ∧
    8 * (colTerms x0 x1 x2 x3 x4 x5 x6 x7).b7.natAbs ≤ 2408 * x5.natAbs + 1609 * x3.natAbs + 4 := by
  simp only [colTerms]
  refine ⟨?_, ?_, ?_, ?_⟩ <;> omega

theorem colTerms_scaled_magnitudes :
    8 * (colTerms x0 x1 x2 x3 x4 x5 x6 x7).s4.natAbs ≤
      3406 * x1.natAbs + 799 * x3.natAbs + 4017 * x5.natAbs + 2276 * x7.natAbs + 16 ∧
    8 * (colTerms x0 x1 x2 x3 x4 x5 x6 x7).s5.natAbs ≤
      2276 * x1.natAbs + 4017 * x3.natAbs + 799 * x5.natAbs + 3406 * x7.natAbs + 16 := by
  simp only [colTerms, ExactTerms.s4, ExactTerms.s5]
  refine ⟨?_, ?_⟩ <;> omega

end

end Sys2Proof
end

section
/-! SUPPORT. Legal rows and columns (spec 70_reset_and_hazards.md R199): the bounds of `rowBounds` and `colBounds` are enough,
and they bound the results as well. -/

namespace Sys2Proof

open Machine

/-! ### The early nodes -/

theorem fits_of_natAbs_le {v : Int} (h : v.natAbs ≤ nodeMax) : Fits v := by
  rw [nodeMax] at h
  omega

theorem prescaleChecks_fit {scale bias x0 x4 : Int} (h0 : (scale * x0).natAbs ≤ nodeMax)
    (hb : (scale * x0 + bias).natAbs ≤ nodeMax) (h4 : (scale * x4).natAbs ≤ nodeMax) :
    ∀ p ∈ prescaleChecks scale bias x0 x4, Fits p.2 := by
  simp only [prescaleChecks, List.forall_mem_cons, List.not_mem_nil, false_implies, implies_true, and_true]
  exact ⟨fits_of_natAbs_le h0, fits_of_natAbs_le hb, fits_of_natAbs_le h4⟩

section
variable {x1 x3 x5 x7 : Int}

/-- The odd rotations of row mode are far smaller than `g2`. -/
theorem rotationChecksRow_fit
    (h : 181 * (3406 * x1.natAbs + 799 * x3.natAbs + 4017 * x5.natAbs + 2276 * x7.natAbs) ≤ nodeMax) :
    ∀ p ∈ rotationChecksRow x1 x3 x5 x7, Fits p.2 := by
  have h1 := bounds_of_natAbs_le (Nat.le_refl x1.natAbs)
  have h3 := bounds_of_natAbs_le (Nat.le_refl x3.natAbs)
  have h5 := bounds_of_natAbs_le (Nat.le_refl x5.natAbs)
  have h7 := bounds_of_natAbs_le (Nat.le_refl x7.natAbs)
  rw [nodeMax] at h
  generalize x1.natAbs = X1 at *
  generalize x3.natAbs = X3 at *
  generalize x5.natAbs = X5 at *
  generalize x7.natAbs = X7 at *
  simp only [rotationChecksRow, List.forall_mem_cons, List.not_mem_nil, false_implies, implies_true, and_true]
  refine ⟨?_, ?_, ?_, ?_, ?_, ?_, ?_, ?_, ?_, ?_, ?_, ?_⟩ <;> omega

/-- So are those of column mode. -/
theorem rotationChecksCol_fit
    (h : 181 * (3406 * x1.natAbs + 799 * x3.natAbs + 4017 * x5.natAbs + 2276 * x7.natAbs) + 3920 ≤ 8 * nodeMax) :
    ∀ p ∈ rotationChecksCol x1 x3 x5 x7, Fits p.2 := by
  have h1 := bounds_of_natAbs_le (Nat.le_refl x1.natAbs)
  have h3 := bounds_of_natAbs_le (Nat.le_refl x3.natAbs)
  have h5 := bounds_of_natAbs_le (Nat.le_refl x5.natAbs)
  have h7 := bounds_of_natAbs_le (Nat.le_refl x7.natAbs)
  rw [nodeMax] at h
  generalize x1.natAbs = X1 at *
  generalize x3.natAbs = X3 at *
  generalize x5.natAbs = X5 at *
  generalize x7.natAbs = X7 at *
  simp only [rotationChecksCol, List.forall_mem_cons, List.not_mem_nil, false_implies, implies_true, and_true]
  refine ⟨?_, ?_, ?_, ?_, ?_, ?_, ?_, ?_, ?_, ?_, ?_, ?_, ?_, ?_⟩ <;> omega

end

section
variable {a0 a1 x2 x6 : Int}

theorem evenChecksRow_fit (ha : a0.natAbs + a1.natAbs ≤ nodeMax) (hm2 : 3784 * x6.natAbs ≤ nodeMax)
    (hc2 : 1108 * x2.natAbs + 2676 * x6.natAbs ≤ nodeMax) (hc3 : 2676 * x2.natAbs + 1108 * x6.natAbs ≤ nodeMax) :
    ∀ p ∈ evenChecksRow a0 a1 x2 x6, Fits p.2 := by
  simp only [evenChecksRow, List.forall_mem_cons, List.not_mem_nil, false_implies, implies_true, and_true]
  refine ⟨?_, ?_, ?_, ?_, ?_, ?_, ?_, ?_⟩ <;> refine fits_of_natAbs_le ?_ <;> omega

theorem evenChecksCol_fit (ha : a0.natAbs + a1.natAbs ≤ nodeMax) (hm2 : 3784 * x6.natAbs ≤ nodeMax)
    (hu2 : 1108 * x2.natAbs + 2676 * x6.natAbs + 4 ≤ nodeMax) (hu3 : 2676 * x2.natAbs + 1108 * x6.natAbs + 4 ≤ nodeMax) :
    ∀ p ∈ evenChecksCol a0 a1 x2 x6, Fits p.2 := by
  simp only [evenChecksCol, List.forall_mem_cons, List.not_mem_nil, false_implies, implies_true, and_true]
  refine ⟨?_, ?_, ?_, ?_, ?_, ?_, ?_, ?_, ?_⟩ <;> refine fits_of_natAbs_le ?_ <;> omega

end

/-! ### Legality -/

/-- A row within its bounds is legal, on either path. -/
theorem rowLegal_of_within {x : Vector Int 8} (h : Within nodeMax rowBounds x) : RowLegal x := by
  simp only [Within, rowBounds, List.forall_mem_cons, magnitude_eq, Vector.getElem_mk, List.getElem_toArray,
    List.getElem_cons_zero, List.getElem_cons_succ, Nat.zero_mul, Nat.add_zero, Nat.zero_add] at h
  obtain ⟨h3, h2, hg2, hg4, hm2, -⟩ := h
  rw [RowLegal, firstOverflow_eq_none, rowChecks]
  split_ifs with hx
  · intro p hp
    rw [List.mem_singleton.1 hp]
    refine fits_of_natAbs_le ?_
    change (8 * x[0]).natAbs ≤ nodeMax
    omega
  · obtain ⟨ha0, ha1, hc2, hc3⟩ := rowTerms_magnitudes x[0] x[1] x[2] x[3] x[4] x[5] x[6] x[7]
    obtain ⟨hb4, hb5, hb6, hb7⟩ := rowTerms_odd_magnitudes x[0] x[1] x[2] x[3] x[4] x[5] x[6] x[7]
    obtain ⟨hs4, hs5⟩ := rowTerms_scaled_magnitudes x[0] x[1] x[2] x[3] x[4] x[5] x[6] x[7]
    rw [← exactTermsRow] at ha0 ha1 hc2 hc3 hb4 hb5 hb6 hb7 hs4 hs5
    have hodd := (exactTermsRow x).oddMagnitude_eq
    have h0 : (2048 * x[0]).natAbs = 2048 * (x[0]).natAbs := Int.natAbs_mul _ _
    have h0' : (2048 * x[0] + 128).natAbs ≤ 2048 * (x[0]).natAbs + 128 := by omega
    have h4 : (2048 * x[4]).natAbs = 2048 * (x[4]).natAbs := Int.natAbs_mul _ _
    refine List.forall_mem_append.2 ⟨List.forall_mem_append.2 ⟨List.forall_mem_append.2
      ⟨prescaleChecks_fit (h0.trans_le ?_) (h0'.trans ?_) (h4.trans_le ?_), rotationChecksRow_fit ?_⟩,
      evenChecksRow_fit ?_ ?_ ?_ ?_⟩, lateChecks_fit ?_ ?_ ?_ ?_⟩
    all_goals clear h0 h0' h4 hx
    all_goals omega

/-- A column within its bounds is legal. -/
theorem colLegal_of_within {x : Vector Int 8} (h : Within (8 * nodeMax) colBounds x) : ColLegal x := by
  simp only [Within, colBounds, List.forall_mem_cons, magnitude_eq, Vector.getElem_mk, List.getElem_toArray,
    List.getElem_cons_zero, List.getElem_cons_succ, Nat.zero_mul, Nat.add_zero, Nat.zero_add] at h
  obtain ⟨h3, h2, hg2, hg4, hm2, hu2, hu3, -⟩ := h
  rw [ColLegal, firstOverflow_eq_none, colChecks]
  obtain ⟨ha0, ha1, hc2, hc3⟩ := colTerms_magnitudes x[0] x[1] x[2] x[3] x[4] x[5] x[6] x[7]
  obtain ⟨hb4, hb5, hb6, hb7⟩ := colTerms_odd_magnitudes x[0] x[1] x[2] x[3] x[4] x[5] x[6] x[7]
  obtain ⟨hs4, hs5⟩ := colTerms_scaled_magnitudes x[0] x[1] x[2] x[3] x[4] x[5] x[6] x[7]
  rw [← exactTermsCol] at ha0 ha1 hc2 hc3 hb4 hb5 hb6 hb7 hs4 hs5
  have hodd := (exactTermsCol x).oddMagnitude_eq
  have h0 : (256 * x[0]).natAbs = 256 * (x[0]).natAbs := Int.natAbs_mul _ _
  have h0' : (256 * x[0] + 8192).natAbs ≤ 256 * (x[0]).natAbs + 8192 := by omega
  have h4 : (256 * x[4]).natAbs = 256 * (x[4]).natAbs := Int.natAbs_mul _ _
  refine List.forall_mem_append.2 ⟨List.forall_mem_append.2 ⟨List.forall_mem_append.2
    ⟨prescaleChecks_fit (h0.trans_le ?_) (h0'.trans ?_) (h4.trans_le ?_), rotationChecksCol_fit ?_⟩,
    evenChecksCol_fit ?_ ?_ ?_ ?_⟩, lateChecks_fit ?_ ?_ ?_ ?_⟩
  all_goals clear h0 h0' h4
  all_goals omega

/-! ### Results -/

/-- The weights of the eight inputs in the result at a place, times 65536: the even part by `a0`, `a1`, `c2`, `c3`, the odd
part by the rotations, at places 1, 2, 5 and 6 through `R2`. -/
def gain : Fin 8 → Vector Nat 8
  | 0 | 7 => #v[256 * 2048, 256 * 2841, 256 * 2676, 256 * 2408, 256 * 2048, 256 * 1609, 256 * 1108, 256 * 565]
  | 1 | 6 => #v[256 * 2048, 181 * 3406, 256 * 1108, 181 * 799, 256 * 2048, 181 * 4017, 256 * 2676, 181 * 2276]
  | 2 | 5 => #v[256 * 2048, 181 * 2276, 256 * 1108, 181 * 4017, 256 * 2048, 181 * 799, 256 * 2676, 181 * 3406]
  | 3 | 4 => #v[256 * 2048, 256 * 565, 256 * 2676, 256 * 1609, 256 * 2048, 256 * 2408, 256 * 1108, 256 * 2841]

/-- What stage 4 adds to or takes from `a0 ± a1` at a place, of the even rotation. -/
def ExactTerms.evenPart (t : ExactTerms) : Fin 8 → Int
  | 0 | 3 | 4 | 7 => t.c3
  | 1 | 2 | 5 | 6 => t.c2

/-- And of the odd rotations. -/
def ExactTerms.oddPart (t : ExactTerms) : Fin 8 → Int
  | 0 | 7 => t.b4 + t.b6
  | 1 | 6 => t.d2
  | 2 | 5 => t.d4
  | 3 | 4 => t.b5 + t.b7

/-- Each sum of stage 4 is made of four parts. -/
theorem ExactTerms.natAbs_sums_le (t : ExactTerms) (bias : Int) (j : Fin 8) :
    (t.sums[j] - bias).natAbs ≤
      (t.a0 - bias).natAbs + t.a1.natAbs + (t.evenPart j).natAbs + (t.oddPart j).natAbs := by
  match j with
  | 0 | 1 | 2 | 3 | 4 | 5 | 6 | 7 =>
    simp [sums, evenPart, oddPart]
    omega

theorem ExactTerms.natAbs_d2_le_s4 (t : ExactTerms) : 256 * t.d2.natAbs ≤ 181 * t.s4.natAbs + 128 := by
  rw [d2]; omega

theorem ExactTerms.natAbs_d4_le_s5 (t : ExactTerms) : 256 * t.d4.natAbs ≤ 181 * t.s5.natAbs + 128 := by
  rw [d4]; omega

section
variable (x0 x1 x2 x3 x4 x5 x6 x7 : Int)

/-! The two pairs of rotations that stage 4 adds up. -/

theorem rowTerms_pair_magnitudes :
    ((rowTerms x0 x1 x2 x3 x4 x5 x6 x7).b4 + (rowTerms x0 x1 x2 x3 x4 x5 x6 x7).b6).natAbs ≤
      2841 * x1.natAbs + 2408 * x3.natAbs + 1609 * x5.natAbs + 565 * x7.natAbs ∧
    ((rowTerms x0 x1 x2 x3 x4 x5 x6 x7).b5 + (rowTerms x0 x1 x2 x3 x4 x5 x6 x7).b7).natAbs ≤
      565 * x1.natAbs + 1609 * x3.natAbs + 2408 * x5.natAbs + 2841 * x7.natAbs := by
  simp only [rowTerms]
  refine ⟨?_, ?_⟩ <;> omega

theorem colTerms_pair_magnitudes :
    8 * ((colTerms x0 x1 x2 x3 x4 x5 x6 x7).b4 + (colTerms x0 x1 x2 x3 x4 x5 x6 x7).b6).natAbs ≤
      2841 * x1.natAbs + 2408 * x3.natAbs + 1609 * x5.natAbs + 565 * x7.natAbs + 8 ∧
    8 * ((colTerms x0 x1 x2 x3 x4 x5 x6 x7).b5 + (colTerms x0 x1 x2 x3 x4 x5 x6 x7).b7).natAbs ≤
      565 * x1.natAbs + 1609 * x3.natAbs + 2408 * x5.natAbs + 2841 * x7.natAbs + 8 := by
  simp only [colTerms]
  refine ⟨?_, ?_⟩ <;> omega

end

/-- The sums of stage 4 in row mode, but for the bias and the rounding of `d2` and `d4`. -/
theorem natAbs_exactTermsRow_sums (x : Vector Int 8) (j : Fin 8) :
    256 * ((exactTermsRow x).sums[j] - 128).natAbs ≤ magnitude (gain j) x + 128 := by
  have hparts := (exactTermsRow x).natAbs_sums_le 128 j
  have hd2 := (exactTermsRow x).natAbs_d2_le_s4
  have hd4 := (exactTermsRow x).natAbs_d4_le_s5
  have ha0 : ((exactTermsRow x).a0 - 128).natAbs ≤ 2048 * (x[0]).natAbs := by
    simp only [exactTermsRow, rowTerms]; omega
  obtain ⟨-, ha1, hc2, hc3⟩ := rowTerms_magnitudes x[0] x[1] x[2] x[3] x[4] x[5] x[6] x[7]
  obtain ⟨hs4, hs5⟩ := rowTerms_scaled_magnitudes x[0] x[1] x[2] x[3] x[4] x[5] x[6] x[7]
  obtain ⟨hb46, hb57⟩ := rowTerms_pair_magnitudes x[0] x[1] x[2] x[3] x[4] x[5] x[6] x[7]
  rw [← exactTermsRow] at ha1 hc2 hc3 hs4 hs5 hb46 hb57
  refine (Nat.mul_le_mul_left 256 hparts).trans ?_
  rw [magnitude_eq]
  match j with
  | 0 | 1 | 2 | 3 | 4 | 5 | 6 | 7 =>
    simp only [gain, ExactTerms.evenPart, ExactTerms.oddPart, Vector.getElem_mk, List.getElem_toArray,
      List.getElem_cons_zero, List.getElem_cons_succ]
    omega

/-- The sums of stage 4 in column mode, eight times as large, but for the bias and the roundings. -/
theorem natAbs_exactTermsCol_sums (x : Vector Int 8) (j : Fin 8) :
    2048 * ((exactTermsCol x).sums[j] - 8192).natAbs ≤ magnitude (gain j) x + 4944 := by
  have hparts := (exactTermsCol x).natAbs_sums_le 8192 j
  have hd2 := (exactTermsCol x).natAbs_d2_le_s4
  have hd4 := (exactTermsCol x).natAbs_d4_le_s5
  have ha0 : ((exactTermsCol x).a0 - 8192).natAbs ≤ 256 * (x[0]).natAbs := by
    simp only [exactTermsCol, colTerms]; omega
  obtain ⟨-, ha1, hc2, hc3⟩ := colTerms_magnitudes x[0] x[1] x[2] x[3] x[4] x[5] x[6] x[7]
  obtain ⟨hs4, hs5⟩ := colTerms_scaled_magnitudes x[0] x[1] x[2] x[3] x[4] x[5] x[6] x[7]
  obtain ⟨hb46, hb57⟩ := colTerms_pair_magnitudes x[0] x[1] x[2] x[3] x[4] x[5] x[6] x[7]
  rw [← exactTermsCol] at ha1 hc2 hc3 hs4 hs5 hb46 hb57
  refine (Nat.mul_le_mul_left 2048 hparts).trans ?_
  rw [magnitude_eq]
  match j with
  | 0 | 1 | 2 | 3 | 4 | 5 | 6 | 7 =>
    simp only [gain, ExactTerms.evenPart, ExactTerms.oddPart, Vector.getElem_mk, List.getElem_toArray,
      List.getElem_cons_zero, List.getElem_cons_succ]
    omega

theorem gain_zero (j : Fin 8) : (gain j)[0] = 524288 := by
  revert j; decide

/-- A result of row mode, to half a unit, and half a unit of `d2` and `d4`. -/
theorem natAbs_rowExact_le (x : Vector Int 8) (j : Fin 8) :
    65536 * ((rowExact x)[j]).natAbs ≤ magnitude (gain j) x + 32896 := by
  rw [rowExact]
  split_ifs with hx
  · have hle : 524288 * (x[0]).natAbs ≤ magnitude (gain j) x := by
      rw [← gain_zero j]
      exact Finset.single_le_sum (f := fun i : Fin 8 => (gain j)[i] * (x[i]).natAbs) (fun _ _ => Nat.zero_le _)
        (Finset.mem_univ 0)
    have hval : (fastExact x[0])[j] = 8 * x[0] := by simp [fastExact]
    rw [hval]
    omega
  · have hsum := natAbs_exactTermsRow_sums x j
    have hval : (rowGeneralExact x)[j] = (exactTermsRow x).sums[j] / 256 := by simp [rowGeneralExact]
    rw [hval]
    omega

/-- A result of column mode, to half a unit and the roundings. -/
theorem natAbs_colExact_le (x : Vector Int 8) (j : Fin 8) :
    33554432 * ((colExact x)[j]).natAbs ≤ magnitude (gain j) x + 16782160 := by
  have hsum := natAbs_exactTermsCol_sums x j
  have hval : (colExact x)[j] = (exactTermsCol x).sums[j] / 16384 := by simp [colExact]
  rw [hval]
  omega

end Sys2Proof
end

section
/-! SUPPORT. Legal blocks (spec 70_reset_and_hazards.md R199, 43_butterfly_column_pass.md R136): the bounds of rows and
columns from a bound on every entry and from the weighted sum, then the statements they settle. -/

namespace Sys2Proof

open Machine

/-! ### Blocks by rows and columns -/

theorem colIndex_eq_rowIndex (c j : Fin 8) : colIndex c j = rowIndex j c := by
  apply Fin.ext
  simp only [colIndex, rowIndex]

/-- A sum over a block is a sum over its rows. -/
theorem sum_block {α : Type} [AddCommMonoid α] (f : Fin 64 → α) : ∑ i, f i = ∑ r, ∑ j, f (rowIndex r j) := by
  rw [← Fintype.sum_prod_type']
  refine (Fintype.sum_equiv finProdFinEquiv (fun p : Fin 8 × Fin 8 => f (rowIndex p.1 p.2)) f fun p => ?_).symm
  congr 1
  apply Fin.ext
  simp only [rowIndex, finProdFinEquiv_apply_val]
  omega

theorem magnitude_row (w : Vector Nat 8) (B : Block) (r : Fin 8) :
    magnitude w (B.row r) = ∑ j : Fin 8, w[j] * (B (rowIndex r j)).natAbs := by
  simp only [magnitude, getElem_row]

theorem magnitude_col (w : Vector Nat 8) (B : Block) (c : Fin 8) :
    magnitude w (B.col c) = ∑ r : Fin 8, w[r] * (B (rowIndex r c)).natAbs := by
  simp only [magnitude, getElem_col, colIndex_eq_rowIndex]

/-! ### A bound on every entry (S1) -/

/-- The sum of eight weights. -/
def totalWeight (w : Vector Nat 8) : Nat := ∑ j : Fin 8, w[j]

theorem magnitude_le_of_natAbs_le (w : Vector Nat 8) {x : Vector Int 8} {X : Nat} (h : ∀ j : Fin 8, (x[j]).natAbs ≤ X) :
    magnitude w x ≤ totalWeight w * X := by
  rw [totalWeight, Finset.sum_mul]
  exact Finset.sum_le_sum fun j _ => Nat.mul_le_mul_left _ (h j)

/-- Eight values of bounded magnitude are within bounds that allow it. -/
theorem within_of_natAbs_le {limit X : Nat} {bounds : List Bound}
    (hb : ∀ b ∈ bounds, totalWeight b.weights * X + b.allowance ≤ limit) {x : Vector Int 8}
    (h : ∀ j : Fin 8, (x[j]).natAbs ≤ X) : Within limit bounds x := fun b hmem =>
  (Nat.add_le_add_right (magnitude_le_of_natAbs_le b.weights h) _).trans (hb b hmem)

/-- A block with entries of magnitude at most 152 passes every row. -/
theorem rowLegal_of_natAbs_le {x : Vector Int 8} (h : ∀ j : Fin 8, (x[j]).natAbs ≤ 152) : RowLegal x :=
  rowLegal_of_within (within_of_natAbs_le (X := 152) (by decide) h)

theorem colLegal_of_natAbs_le {x : Vector Int 8} (h : ∀ j : Fin 8, (x[j]).natAbs ≤ 9027) : ColLegal x :=
  colLegal_of_within (within_of_natAbs_le (X := 9027) (by decide) h)

theorem natAbs_rowExact_of_box {x : Vector Int 8} (h : ∀ j : Fin 8, (x[j]).natAbs ≤ 151) (j : Fin 8) :
    ((rowExact x)[j]).natAbs ≤ 9027 := by
  have hgain : ∀ j : Fin 8, totalWeight (gain j) * 151 + 32896 < 65536 * 9028 := by decide
  have hsum := (natAbs_rowExact_le x j).trans (Nat.add_le_add_right (magnitude_le_of_natAbs_le (gain j) h) _)
  have := hgain j
  omega

theorem natAbs_colExact_of_box {x : Vector Int 8} (h : ∀ j : Fin 8, (x[j]).natAbs ≤ 9027) (j : Fin 8) :
    ((colExact x)[j]).natAbs ≤ 1055 := by
  have hgain : ∀ j : Fin 8, totalWeight (gain j) * 9027 + 16782160 < 33554432 * 1056 := by decide
  have hsum := (natAbs_colExact_le x j).trans (Nat.add_le_add_right (magnitude_le_of_natAbs_le (gain j) h) _)
  have := hgain j
  omega

/-- Settles O53: the rows' inputs are bounded by 151, so the columns' by 9027. -/
theorem boxOf151IsLegal : Obligations.BoxOf151IsLegal := by
  intro B hB
  have hrow (r j : Fin 8) : ((B.row r)[j]).natAbs ≤ 151 := by
    have := hB (rowIndex r j)
    rw [getElem_row]
    omega
  have hpass (i : Fin 64) : (rowPass B i).natAbs ≤ 9027 := natAbs_rowExact_of_box (hrow (rowOf i)) (colOf i)
  have hcol (c j : Fin 8) : (((rowPass B).col c)[j]).natAbs ≤ 9027 := by
    rw [getElem_col]
    exact hpass _
  refine ⟨⟨fun r => rowLegal_of_natAbs_le fun j => (hrow r j).trans (by decide), fun c => colLegal_of_natAbs_le (hcol c)⟩,
    fun i => ?_⟩
  have hidct : (idct B i).natAbs ≤ 1055 := natAbs_colExact_of_box (hcol (colOf i)) (rowOf i)
  have := hpass i
  omega

/-! ### The weighted sum (S3) -/

theorem weightLimit_pos (i : Fin 64) : 0 < weightLimit i := by
  revert i; decide

/-- If no coefficient times its entry's limit exceeds `C`, then neither does the sum that the weighted sum bounds. -/
theorem sum_natAbs_le_of_weightedSum {B : Block} (hB : weightedSum B ≤ 1) {k : Fin 64 → Nat} {C : Nat}
    (hk : ∀ i, k i * weightLimit i ≤ C) : ∑ i, k i * (B i).natAbs ≤ C := by
  have hterm (i : Fin 64) : ((k i * (B i).natAbs : Nat) : ℚ) ≤ C * ((|B i| : ℚ) / weightLimit i) := by
    have hpos : (0 : ℚ) < weightLimit i := by exact_mod_cast weightLimit_pos i
    have hki : ((k i * weightLimit i : Nat) : ℚ) ≤ C := by exact_mod_cast hk i
    rw [Nat.cast_mul, Nat.cast_natAbs, Int.cast_abs, mul_div_assoc', le_div_iff₀ hpos]
    calc (k i : ℚ) * |(B i : ℚ)| * weightLimit i = (k i * weightLimit i : Nat) * |(B i : ℚ)| := by push_cast; ring
      _ ≤ C * |(B i : ℚ)| := mul_le_mul_of_nonneg_right hki (abs_nonneg _)
  have hsum : ((∑ i, k i * (B i).natAbs : Nat) : ℚ) ≤ C := by
    calc ((∑ i, k i * (B i).natAbs : Nat) : ℚ) = ∑ i, ((k i * (B i).natAbs : Nat) : ℚ) := Nat.cast_sum _ _
      _ ≤ ∑ i, C * ((|B i| : ℚ) / weightLimit i) := Finset.sum_le_sum fun i _ => hterm i
      _ = C * weightedSum B := (Finset.mul_sum _ _ _).symm
      _ ≤ C * 1 := mul_le_mul_of_nonneg_left hB (Nat.cast_nonneg C)
      _ = C := mul_one _
  exact_mod_cast hsum

/-- The table `M` stays within the bounds of every row. -/
theorem weightLimit_rowBounds :
    ∀ b ∈ rowBounds, ∀ r j : Fin 8, b.weights[j] * weightLimit (rowIndex r j) + b.allowance ≤ nodeMax := by decide

/-- And, through the row pass, those of every column. -/
theorem weightLimit_colBounds :
    ∀ b ∈ colBounds, ∀ c r j : Fin 8, b.weights[r] * (gain c)[j] * weightLimit (rowIndex r j) +
      (32896 * totalWeight b.weights + 65536 * b.allowance) ≤ 65536 * (8 * nodeMax) := by decide

/-- The coefficients of the 64 entries in a weighted sum over row `r`. -/
def rowCoefficient (w : Vector Nat 8) (r : Fin 8) (i : Fin 64) : Nat := if rowOf i = r then w[colOf i] else 0

theorem rowCoefficient_rowIndex (w : Vector Nat 8) (r r' j : Fin 8) :
    rowCoefficient w r (rowIndex r' j) = if r' = r then w[j] else 0 := by
  simp [rowCoefficient]

theorem magnitude_row_eq_sum (w : Vector Nat 8) (B : Block) (r : Fin 8) :
    magnitude w (B.row r) = ∑ i, rowCoefficient w r i * (B i).natAbs := by
  have hother : ∀ r' ∈ Finset.univ, r' ≠ r →
      ∑ j, rowCoefficient w r (rowIndex r' j) * (B (rowIndex r' j)).natAbs = 0 := fun r' _ hr => by
    simp only [rowCoefficient_rowIndex, if_neg hr, Nat.zero_mul, Finset.sum_const_zero]
  rw [magnitude_row, sum_block, Finset.sum_eq_single r hother fun h => absurd (Finset.mem_univ r) h]
  simp only [rowCoefficient_rowIndex, if_true]

/-- The coefficients of the 64 entries in a weighted sum over column `c` of the row pass, times 65536. -/
def colCoefficient (w : Vector Nat 8) (c : Fin 8) (i : Fin 64) : Nat := w[rowOf i] * (gain c)[colOf i]

theorem colCoefficient_rowIndex (w : Vector Nat 8) (c r j : Fin 8) :
    colCoefficient w c (rowIndex r j) = w[r] * (gain c)[j] := by
  simp [colCoefficient]

/-- A weighted sum over a column of the row pass, by the entries of the block. -/
theorem magnitude_col_rowPass_le (w : Vector Nat 8) (B : Block) (c : Fin 8) :
    65536 * magnitude w ((rowPass B).col c) ≤
      ∑ i, colCoefficient w c i * (B i).natAbs + 32896 * totalWeight w := by
  have hentry (r : Fin 8) : 65536 * (rowPass B (rowIndex r c)).natAbs ≤
      ∑ j : Fin 8, (gain c)[j] * (B (rowIndex r j)).natAbs + 32896 := by
    rw [rowPass_rowIndex, ← magnitude_row]
    exact natAbs_rowExact_le _ _
  calc 65536 * magnitude w ((rowPass B).col c)
      = ∑ r : Fin 8, w[r] * (65536 * (rowPass B (rowIndex r c)).natAbs) := by
        rw [magnitude_col, Finset.mul_sum]
        exact Finset.sum_congr rfl fun r _ => Nat.mul_left_comm _ _ _
    _ ≤ ∑ r : Fin 8, w[r] * (∑ j : Fin 8, (gain c)[j] * (B (rowIndex r j)).natAbs + 32896) :=
        Finset.sum_le_sum fun r _ => Nat.mul_le_mul_left _ (hentry r)
    _ = ∑ i, colCoefficient w c i * (B i).natAbs + 32896 * totalWeight w := by
        rw [sum_block, totalWeight, Finset.mul_sum, ← Finset.sum_add_distrib]
        refine Finset.sum_congr rfl fun r _ => ?_
        rw [Nat.mul_add, Finset.mul_sum, Nat.mul_comm w[r] 32896]
        simp only [colCoefficient_rowIndex, Nat.mul_assoc]

theorem forall_block {P : Fin 64 → Prop} (h : ∀ r j, P (rowIndex r j)) (i : Fin 64) : P i :=
  rowIndex_rowOf_colOf i ▸ h (rowOf i) (colOf i)

/-- A block whose weighted sum is at most 1 is legal. -/
theorem legalBlock_of_weightedSum {B : Block} (hB : weightedSum B ≤ 1) : LegalBlock B := by
  refine ⟨fun r => rowLegal_of_within fun b hb => ?_, fun c => colLegal_of_within fun b hb => ?_⟩
  · have hk : ∀ i, rowCoefficient b.weights r i * weightLimit i ≤ nodeMax - b.allowance := forall_block fun r' j => by
      have hlimit := weightLimit_rowBounds b hb r' j
      rw [rowCoefficient_rowIndex]
      split_ifs
      · omega
      · omega
    have hsum := sum_natAbs_le_of_weightedSum hB hk
    have hallowance := weightLimit_rowBounds b hb 0 0
    rw [← magnitude_row_eq_sum] at hsum
    omega
  · have hk : ∀ i, colCoefficient b.weights c i * weightLimit i ≤
        65536 * (8 * nodeMax) - (32896 * totalWeight b.weights + 65536 * b.allowance) := forall_block fun r j => by
      have hlimit := weightLimit_colBounds b hb c r j
      rw [colCoefficient_rowIndex]
      omega
    have hsum := sum_natAbs_le_of_weightedSum hB hk
    have hallowance := weightLimit_colBounds b hb 0 0 0
    have hcol := magnitude_col_rowPass_le b.weights B c
    omega

/-- Settles O55: the weighted sum keeps every bound of every row and column. -/
theorem weightedSumIsLegal : Obligations.WeightedSumIsLegal := fun _ => legalBlock_of_weightedSum

/-! ### A single entry (S2) -/

/-- The bounds of rows and columns allow a single entry of magnitude `V` at index `p`. -/
def AllowsSingle (p : Fin 64) (V : Nat) : Prop :=
  (∀ b ∈ rowBounds, b.weights[colOf p] * V + b.allowance ≤ nodeMax) ∧
  ∀ b ∈ colBounds, ∀ c : Fin 8,
    b.weights[rowOf p] * (((gain c)[colOf p] * V + 32896) / 65536) + b.allowance ≤ 8 * nodeMax

section
variable {B : Block} {p : Fin 64} (hB : ∀ i, i ≠ p → B i = 0)
include hB

theorem magnitude_row_of_single (w : Vector Nat 8) (r : Fin 8) :
    magnitude w (B.row r) = rowCoefficient w r p * (B p).natAbs := by
  rw [magnitude_row_eq_sum]
  refine Finset.sum_eq_single p (fun i _ hi => ?_) fun h => absurd (Finset.mem_univ p) h
  rw [hB i hi, Int.natAbs_zero, Nat.mul_zero]

/-- Rows without the entry stay 0. -/
theorem rowPass_of_single {r : Fin 8} (hr : r ≠ rowOf p) (c : Fin 8) : rowPass B (rowIndex r c) = 0 := by
  have hle := natAbs_rowExact_le (B.row r) c
  rw [magnitude_row_of_single hB, rowCoefficient, if_neg hr.symm, Nat.zero_mul] at hle
  rw [rowPass_rowIndex]
  omega

/-- The row of the entry, by the entry. -/
theorem natAbs_rowPass_of_single {V : Nat} (hV : (B p).natAbs ≤ V) (c : Fin 8) :
    (rowPass B (rowIndex (rowOf p) c)).natAbs ≤ ((gain c)[colOf p] * V + 32896) / 65536 := by
  have hle := natAbs_rowExact_le (B.row (rowOf p)) c
  rw [magnitude_row_of_single hB, rowCoefficient, if_pos rfl] at hle
  rw [rowPass_rowIndex, Nat.le_div_iff_mul_le (by decide), Nat.mul_comm]
  exact hle.trans (Nat.add_le_add_right (Nat.mul_le_mul_left _ hV) _)

theorem magnitude_col_of_single (w : Vector Nat 8) (c : Fin 8) :
    magnitude w ((rowPass B).col c) = w[rowOf p] * (rowPass B (rowIndex (rowOf p) c)).natAbs := by
  rw [magnitude_col]
  refine Finset.sum_eq_single (rowOf p) (fun r _ hr => ?_) fun h => absurd (Finset.mem_univ _) h
  rw [rowPass_of_single hB hr, Int.natAbs_zero, Nat.mul_zero]

theorem rowLegal_of_single {V : Nat} (hb : ∀ b ∈ rowBounds, b.weights[colOf p] * V + b.allowance ≤ nodeMax)
    (hV : (B p).natAbs ≤ V) (r : Fin 8) : RowLegal (B.row r) := by
  refine rowLegal_of_within fun b hmem => ?_
  have hcoefficient : rowCoefficient b.weights r p ≤ b.weights[colOf p] := by
    rw [rowCoefficient]
    split_ifs
    · exact Nat.le_refl _
    · exact Nat.zero_le _
  rw [magnitude_row_of_single hB]
  exact (Nat.add_le_add_right (Nat.mul_le_mul hcoefficient hV) _).trans (hb b hmem)

/-- A single entry that the bounds allow makes a legal block. -/
theorem legalBlock_of_single {V : Nat} (hp : AllowsSingle p V) (hV : (B p).natAbs ≤ V) : LegalBlock B := by
  obtain ⟨hrow, hcol⟩ := hp
  refine ⟨rowLegal_of_single hB hrow hV, fun c => colLegal_of_within fun b hmem => ?_⟩
  rw [magnitude_col_of_single hB]
  exact (Nat.add_le_add_right (Nat.mul_le_mul_left _ (natAbs_rowPass_of_single hB hV c)) _).trans (hcol b hmem c)

end

theorem allowsSingle_2129 : ∀ p, AllowsSingle p 2129 := by
  unfold AllowsSingle; decide

/-- Settles O54: the bounds allow a single entry of magnitude 2129 anywhere. -/
theorem singleCoefficientIsLegal : Obligations.SingleCoefficientIsLegal :=
  fun _ p hB hlo hhi => legalBlock_of_single hB (allowsSingle_2129 p) (by omega)

theorem singleBlock_self (p : Fin 64) (v : Int) : singleBlock p v p = v := if_pos rfl

theorem singleBlock_of_ne (p : Fin 64) (v : Int) (i : Fin 64) (h : i ≠ p) : singleBlock p v i = 0 := if_neg h

theorem legalBlock_singleBlock {p : Fin 64} {v : Int} {V : Nat} (hp : AllowsSingle p V) (hv : v.natAbs ≤ V) :
    LegalBlock (singleBlock p v) :=
  legalBlock_of_single (singleBlock_of_ne p v) hp (by rwa [singleBlock_self])

/-! ### Just outside the bounds, by evaluation -/

/-- The row pass in a form that evaluates. -/
def rowPassValue (B : Block) : Block := fun i =>
  if AcZero (B.row (rowOf i)) then 8 * B (rowIndex (rowOf i) 0)
  else (exactTermsRow (B.row (rowOf i))).sums[colOf i] / 256

theorem rowPass_eq_rowPassValue (B : Block) : rowPass B = rowPassValue B := by
  funext i
  have hdc : (B.row (rowOf i))[0] = B (rowIndex (rowOf i) 0) := getElem_row B (rowOf i) 0
  rw [rowPass, rowPassValue, ← hdc]
  generalize B.row (rowOf i) = x
  by_cases hx : AcZero x
  · simp only [rowExact, if_pos hx]
    simp [fastExact]
  · simp only [rowExact, if_neg hx]
    simp [rowGeneralExact]

/-- Settles O57: the bounds allow 3483 at (0,7) and 2129 anywhere; the two blocks beyond them by evaluation, the rows of the
second by the bounds again. -/
theorem singleCoefficientBoundsAreTight : Obligations.SingleCoefficientBoundsAreTight := by
  have h7 : AllowsSingle 7 3483 := by unfold AllowsSingle; decide
  have hrow : ∀ b ∈ rowBounds, b.weights[colOf 27] * 2130 + b.allowance ≤ nodeMax := by decide
  refine ⟨fun v hlo hhi => legalBlock_singleBlock h7 (by omega), by decide, by decide,
    fun p v hlo hhi => legalBlock_singleBlock (allowsSingle_2129 p) (by omega),
    rowLegal_of_single (singleBlock_of_ne 27 2130) hrow (by rw [singleBlock_self]; decide), ?_, ?_⟩
  · rw [rowPass_eq_rowPassValue]; decide
  · rw [rowPass_eq_rowPassValue]; decide

theorem natAbs_boxPattern (k : Int) (i : Fin 64) : (boxPattern k i).natAbs = k.natAbs := by
  rw [boxPattern]
  split_ifs
  · exact Int.natAbs_neg k
  · rfl

theorem legalBlock_boxPattern {k : Int} (hk : k.natAbs ≤ 151) : LegalBlock (boxPattern k) := by
  refine (boxOf151IsLegal (boxPattern k) fun i => ?_).1
  have := natAbs_boxPattern k i
  omega

theorem rowLegal_boxPattern {k : Int} (hk : k.natAbs ≤ 152) (r : Fin 8) : RowLegal ((boxPattern k).row r) :=
  rowLegal_of_natAbs_le fun j => by rwa [getElem_row, natAbs_boxPattern]

/-- Settles O56: the box, and its rows at 152, by the bounds; column 0 at 152 by evaluation. -/
theorem boxBoundIsTight : Obligations.BoxBoundIsTight := by
  refine ⟨legalBlock_boxPattern (by decide), legalBlock_boxPattern (by decide),
    fun r => ⟨rowLegal_boxPattern (by decide) r, rowLegal_boxPattern (by decide) r⟩, ?_⟩
  simp only [rowPass_eq_rowPassValue]
  decide

/-! ### The golden test: a DC-only block (43 R136) -/

/-- Row 0 of a DC-only block has its entry alone, the other rows nothing. -/
theorem row_dcBlock (k : Int) (r : Fin 8) :
    (singleBlock 0 k).row r = #v[if r = 0 then k else 0, 0, 0, 0, 0, 0, 0, 0] := by
  match r with
  | 0 | 1 | 2 | 3 | 4 | 5 | 6 | 7 => rfl

theorem rowLegal_dc (k : Int) : RowLegal #v[k, 0, 0, 0, 0, 0, 0, 0] ↔ Fits (8 * k) := by
  have hx : AcZero #v[k, 0, 0, 0, 0, 0, 0, 0] := ⟨rfl, rfl, rfl, rfl, rfl, rfl, rfl⟩
  rw [RowLegal, rowChecks, if_pos hx, firstOverflow_eq_none, fastChecks, List.forall_mem_singleton]
  rfl

theorem rowExact_dc (k : Int) : rowExact #v[k, 0, 0, 0, 0, 0, 0, 0] = Vector.replicate 8 (8 * k) := by
  have hx : AcZero #v[k, 0, 0, 0, 0, 0, 0, 0] := ⟨rfl, rfl, rfl, rfl, rfl, rfl, rfl⟩
  rw [rowExact, if_pos hx]
  rfl

theorem rowPass_dcBlock (k : Int) (r c : Fin 8) :
    rowPass (singleBlock 0 k) (rowIndex r c) = if r = 0 then 8 * k else 0 := by
  rw [rowPass_rowIndex, row_dcBlock, rowExact_dc]
  split_ifs <;> simp

/-- Every column of the row pass has eight times the entry at its top. -/
theorem col_dcBlock (k : Int) (c : Fin 8) : (rowPass (singleBlock 0 k)).col c = #v[8 * k, 0, 0, 0, 0, 0, 0, 0] := by
  have hentry (j : Fin 8) : ((rowPass (singleBlock 0 k)).col c)[j] = if j = 0 then 8 * k else 0 := by
    rw [getElem_col, colIndex_eq_rowIndex, rowPass_dcBlock]
  exact eq_of_acZero ⟨hentry 1, hentry 2, hentry 3, hentry 4, hentry 5, hentry 6, hentry 7⟩ (hentry 0)

theorem colLegal_dc (k : Int) :
    ColLegal #v[k, 0, 0, 0, 0, 0, 0, 0] ↔ Fits (256 * k) ∧ Fits (256 * k + 8192) := by
  rw [ColLegal, firstOverflow_colChecks_dc]
  split_ifs with hp ha
  · exact iff_of_true rfl ⟨hp, ha⟩
  · exact iff_of_false (nomatch ·) fun h => ha h.2
  · exact iff_of_false (nomatch ·) fun h => hp h.1

/-- Settles O52: row 0 and all eight columns have a DC entry alone, and the columns' prescale gives the range. -/
theorem dcOnlyBlockIsUniform : Obligations.DcOnlyBlockIsUniform := by
  intro k B hB
  obtain rfl : B = singleBlock 0 k := hB
  refine ⟨?_, fun _ _ i => ?_⟩
  · simp only [LegalBlock, row_dcBlock, col_dcBlock, rowLegal_dc, colLegal_dc]
    constructor
    · rintro ⟨-, hcol⟩
      have := hcol 0
      omega
    · rintro ⟨hlo, hhi⟩
      refine ⟨fun r => ?_, fun _ => by omega⟩
      split_ifs
      · omega
      · decide
  · rw [← colIndex_colOf_rowOf i, idct_colIndex, col_dcBlock, colExact_dc]
    have hdiv : (8 * k + 32) / 64 = (k + 4) / 8 := by omega
    simpa using hdiv

end Sys2Proof
end
